-- ==== Sys2Proof/Word.lean ====
section
/-! DEFINITION. The words the interfaces of the block carry. -/

namespace Sys2Proof

/-- A 32-bit command word on `cmd`, a word on `tick`, or a response word on `rsp` (R44, R61). Bit `i` has weight
`2^i` (R14, R47). -/
abbrev Word := BitVec 32

/-- One byte of a platform's byte-addressed bus; the block itself has no bytes (R47). -/
abbrev Byte := BitVec 8

end Sys2Proof
end

