-- ==== Sys2Proof/Config.lean ====
section
/-! DEFINITION. The parameters of R12 and R43 that an implementation fixes. Those the spec leaves OPEN are opaque
constants: nothing can prove a value of one, so a claim holds for every value. -/

namespace Sys2Proof.Config

/-- `W_REM` less one, OPEN (D11, U7): any of 0 to 23. DESIGN CHOICE, safe (log 5). -/
opaque remWidthIndex : Fin 24

/-- `W_REM`, the width in bits of `cd.rem`: OPEN, with 1 ≤ `W_REM` ≤ 24 (R12, R25, D11). -/
def wRem : Nat := remWidthIndex.val + 1

/-- `SIMUL_ORDER`, OPEN (R121, D19, U6): is the tick taken before the command, for the `n`-th pair that arrives at the
same instant? Free for every pair. DESIGN CHOICE, safe (log 6). -/
opaque simulTickFirst : Nat → Bool

/-- The two byte orders a platform bus may use. -/
inductive BusEndian where
  | little
  | big
deriving DecidableEq, Repr, Inhabited

/-- `BUS_ENDIAN`, OPEN (R47, D22, U8). DESIGN CHOICE, safe (log 7). -/
opaque busEndian : BusEndian

/-- `CLOCK_RESET`, hours of 00:01:00 (R12, R36, D29). -/
def clockResetHours : BitVec 5 := 0

/-- `CLOCK_RESET`, minutes of 00:01:00 (R12, R36, D29). -/
def clockResetMinutes : BitVec 6 := 1

/-- `CLOCK_RESET`, seconds of 00:01:00 (R12, R36, D29). -/
def clockResetSeconds : BitVec 6 := 0

end Sys2Proof.Config
end

