-- ==== Sys2Proof/Syntax.lean ====
section
/-! DEFINITION. The commands of R69, one constructor per row of the opcode table, and the names their encoding uses. -/

namespace Sys2Proof

/-- `PowerMode`, "enumerated {High, Low, Defrost}" (R28). -/
inductive PowerMode where
  | high
  | low
  | defrost
deriving DecidableEq, Repr

/-- The two input channels, which are the two execution contexts (R44, R127). -/
inductive Channel where
  | cmd
  | tick
deriving DecidableEq, Repr

/-- The assigned opcodes of R69. -/
inductive Opcode where
  | gettime | settime | getrem | setrem | start | stop | ack | peek | duty | status | tick
deriving DecidableEq, Repr

/-- The five formats of R62. -/
inductive Format where
  | n | t | r | m | q
deriving DecidableEq, Repr

/-- A command with its operand fields (R62, R69). A mode field is held as its 2-bit code, 3 included: `WellFormed`
says which codes name a mode (R73). -/
inductive Instr where
  | gettime
  | settime (hh : BitVec 5) (mm : BitVec 6)
  | getrem
  | setrem (sss : BitVec 24)
  | start (md : BitVec 2)
  | stop
  | ack
  | peek
  | duty (md : BitVec 2) (rrr : BitVec 24)
  | status
  | tick
deriving DecidableEq, Repr

end Sys2Proof
end

