-- ==== Sys2Proof/Machine/State.lean ====
section
/-! DEFINITION. The state of the block (10_state.md R21), its interfaces' state, and the state after reset. The fields
carry the spec's own names: `clk.h` is `clk.h`, `cd.rem` is `cd.rem`, and so on. -/

namespace Sys2Proof.Machine

/-- `ClockTime` (R23): three unsigned registers. -/
structure Clock where
  h : BitVec 5
  m : BitVec 6
  s : BitVec 6
deriving DecidableEq, Repr

/-- `CountdownState` (R25, R26). `rem` is `W_REM` bits wide (OPEN); it is held in the 24 bits that every `W_REM` fits,
and stays below `2^W_REM`. DESIGN CHOICE, safe (log 5). -/
structure Countdown where
  rem : BitVec 24
  active : Bool
  complete : Bool
deriving DecidableEq, Repr

/-- The two output levels, true = energised (R29). -/
structure Outputs where
  heat : Bool
  plate : Bool
deriving DecidableEq, Repr

/-- The value of `fault.kind` (R32, R115). -/
inductive FaultKind where
  | none
  | illegalCommand
  | contractViolation
  | startupMisconfig
deriving DecidableEq, Repr

/-- The fault register (R32). -/
structure FaultRegister where
  kind : FaultKind
  info : Word
deriving DecidableEq, Repr

/-- One thing the outside world does at the block's inputs (R44). Which of them come, and in which order, is the
environment's; every list of them is admitted (R56). DESIGN CHOICE, safe (log 3). -/
inductive Arrival where
  /-- One word on `cmd` (R45). -/
  | cmd (w : Word)
  /-- One event on `tick`, as the word it carries; a hardware tick source produces only the TICK word (R75, R110). -/
  | tick (w : Word)
  /-- A command and a tick at the same instant; which goes first is `SIMUL_ORDER` (R121). -/
  | simultaneous (cmdWord tickWord : Word)
  /-- A command, and a tick that arrives while it is in progress: the tick is pending (R120). -/
  | tickDuringCmd (cmdWord tickWord : Word)
  /-- `reset` is asserted, or power comes up, and `tick_source_ok` is sampled (R134, R137). -/
  | reset (tickSourceOk : Bool)
  /-- A 32-bit write of a platform's byte bus to `cmd`; the bytes by rising bus address (R47). -/
  | busWrite (b0 b1 b2 b3 : Byte)
  /-- A write narrower than 32 bits to `cmd` (R48, U9). -/
  | narrowWrite
deriving DecidableEq, Repr

/-- Everything the block holds between two transactions. -/
structure State where
  /-- `clk.h`, `clk.m`, `clk.s` (R23). -/
  clk : Clock
  /-- `cd.rem`, `cd.active`, `cd.complete` (R25, R26). -/
  cd : Countdown
  /-- `mode` (R28); its 2-bit code is `PowerMode.code`, and code 3 is never stored. -/
  mode : PowerMode
  /-- `out.heat`, `out.plate` (R29). -/
  out : Outputs
  /-- `fault.kind`, `fault.info` (R32). -/
  fault : FaultRegister
  /-- The response channel `rsp` (R44, R74): the word the transaction just taken placed there, `none` where it placed
  none. DESIGN CHOICE, safe (log 4). -/
  rsp : Option Word
  /-- A tick that arrived during a command and is taken next (R120); no command reads it (R33). -/
  pendingTick : Option Word
  /-- The model's own: what is still to arrive, the next first (log 3). -/
  arrivals : List Arrival
  /-- The model's own: how many simultaneous arrivals there have been, the argument of `SIMUL_ORDER` (log 6). -/
  simulCount : Nat
deriving DecidableEq, Repr

/-- The reasons for which the MODEL stops with a fault: none. The spec's faults are recorded in the fault register and
leave the block in a next state, from which a reset leads on (R117, R124), so no step ends the run with a fault.
Safe (log 8). -/
inductive Fault
deriving DecidableEq, Repr

/-- The reasons for which a step is refused. -/
inductive Refusal where
  /-- Raised by an arm of `exec` whose instruction has no meaning yet: no arm does. Safe. -/
  | notModelled (mnemonic : String)
  /-- Raised by `step` on a write narrower than 32 bits to `cmd`, which "is outside this spec and a model refuses it"
  (R48, U9). Safe: the model stops (log 9). -/
  | narrowWriteOutsideSpec
deriving DecidableEq, Repr

/-- The state after a reset whose tick-source check passes (R135, R136): every register as R36 to R41 state it, nothing
pending, nothing arriving. DESIGN CHOICE for the passing check (log 1), `rsp` (log 4), `arrivals` (log 3) and
`simulCount` (log 6). -/
def State.reset : State where
  clk := { h := Config.clockResetHours, m := Config.clockResetMinutes, s := Config.clockResetSeconds }
  cd := { rem := 0, active := false, complete := false }
  mode := .high
  out := { heat := false, plate := false }
  fault := { kind := .none, info := 0 }
  rsp := none
  pendingTick := none
  arrivals := []
  simulCount := 0

end Sys2Proof.Machine
end

