-- ==== Sys2Proof/Machine/Flags.lean ====
section
/-! DEFINITION. The two flags `cd.active` and `cd.complete` (R19, R26), how the operations write them, and the state
machine that is a function of them (R27). -/

namespace Sys2Proof.Machine

/-- START's flags: `cd.active` set, `cd.complete` cleared (R89). -/
def Countdown.started (c : Countdown) : Countdown := { c with active := true, complete := false }

/-- STOP's flags: `cd.active` cleared, `cd.complete` kept (R90). -/
def Countdown.halted (c : Countdown) : Countdown := { c with active := false }

/-- ACK's flags: `cd.complete` cleared, `cd.active` kept (R91). -/
def Countdown.acknowledged (c : Countdown) : Countdown := { c with complete := false }

/-- The expiring tick's flags: `cd.active` cleared, `cd.complete` set (R94). -/
def Countdown.expired (c : Countdown) : Countdown := { c with active := false, complete := true }

/-- The states of the countdown (R27). -/
inductive FsmState where
  | idle
  | running
  | expired
deriving DecidableEq, Repr

/-- `fsm_state(active, complete)` of R27; both flags set, unreachable from reset, is Running (U20). -/
def fsmState (c : Countdown) : FsmState :=
  if c.active then .running else if c.complete then .expired else .idle

/-- The 2-bit code of `fault.kind` (R32, R115). -/
def FaultKind.code : FaultKind → BitVec 2
  | .none => 0
  | .illegalCommand => 1
  | .contractViolation => 2
  | .startupMisconfig => 3

end Sys2Proof.Machine
end

