-- ==== Sys2Proof/WellFormed.lean ====
section
/-! DEFINITION. Which commands are well-formed: those whose mode field names a `PowerMode`. Every other field admits
every value, since the ranges of hours, minutes and seconds are no matter of encoding (R65, R70, R77). -/

namespace Sys2Proof

/-- "The mode code 3 ... names no `PowerMode`" (R73). -/
def modeCodeNamed (md : BitVec 2) : Bool := md != 3

/-- A command is well-formed when its mode field, if it has one, is not 3 (R73). -/
def Instr.wellFormed : Instr → Bool
  | .gettime => true
  | .settime _ _ => true
  | .getrem => true
  | .setrem _ => true
  | .start md => modeCodeNamed md
  | .stop => true
  | .ack => true
  | .peek => true
  | .duty md _ => modeCodeNamed md
  | .status => true
  | .tick => true

end Sys2Proof
end

