-- ==== Sys2Proof/Decode.lean ====
section
/-! DEFINITION. Decoding a word of a channel into a command (R61 to R76), and after it the encoder. Both are total;
the decoder rejects by name. -/

namespace Sys2Proof

/-! The opcode map. -/

/-- The opcode field of each command (R69). -/
def Opcode.bits : Opcode → BitVec 4
  | .gettime => 0x1
  | .settime => 0x2
  | .getrem => 0x3
  | .setrem => 0x4
  | .start => 0x5
  | .stop => 0x6
  | .ack => 0x7
  | .peek => 0x8
  | .duty => 0x9
  | .status => 0xA
  | .tick => 0xF

/-- The rows of R69, in its order. -/
def Opcode.all : List Opcode :=
  [.gettime, .settime, .getrem, .setrem, .start, .stop, .ack, .peek, .duty, .status, .tick]

/-- The format of each command (R62, R69). -/
def Opcode.format : Opcode → Format
  | .gettime => .n
  | .settime => .t
  | .getrem => .n
  | .setrem => .r
  | .start => .m
  | .stop => .n
  | .ack => .n
  | .peek => .n
  | .duty => .q
  | .status => .n
  | .tick => .n

/-- The reserved-zero bits of each format (R63 to R67). -/
def Format.reserved : Format → Word
  | .n => 0x0FFFFFFF
  | .t => 0x0FE0C0FF
  | .r => 0x0F000000
  | .m => 0x0FFFFFFC
  | .q => 0x0C000000

/-- The mask column of R69: the opcode field and the reserved-zero bits. -/
def Opcode.mask (op : Opcode) : Word := 0xF0000000#32 ||| op.format.reserved

/-- The match column of R69: the opcode, every reserved bit 0. -/
def Opcode.pattern (op : Opcode) : Word := op.bits.setWidth 32 <<< 28

/-- The opcode `w[31:28]` names, if it is assigned (R69, R71). -/
def opcodeOfBits (b : BitVec 4) : Option Opcode := Opcode.all.find? fun op => op.bits == b

/-! The fields of a word (R62, R68): unsigned, no scaling. -/

/-- `w[31:28]`. -/
def opcodeField (w : Word) : BitVec 4 := w.extractLsb' 28 4

/-- `hh = w[20:16]`. -/
def hoursField (w : Word) : BitVec 5 := w.extractLsb' 16 5

/-- `mm = w[13:8]`. -/
def minutesField (w : Word) : BitVec 6 := w.extractLsb' 8 6

/-- `sss = w[23:0]` of format R and `rrr = w[23:0]` of format Q. -/
def secondsField (w : Word) : BitVec 24 := w.extractLsb' 0 24

/-- `md = w[1:0]` of format M. -/
def modeFieldM (w : Word) : BitVec 2 := w.extractLsb' 0 2

/-- `md = w[25:24]` of format Q. -/
def modeFieldQ (w : Word) : BitVec 2 := w.extractLsb' 24 2

/-- The code of a mode, the value held in the 2-bit register `mode` (R28, R68). -/
def PowerMode.code : PowerMode → BitVec 2
  | .high => 0
  | .low => 1
  | .defrost => 2

/-- `mode_of(md)` of R68: `none` for the illegal code 3. -/
def modeOf (md : BitVec 2) : Option PowerMode :=
  if md = 0 then some .high
  else if md = 1 then some .low
  else if md = 2 then some .defrost
  else none

/-! The decoder. -/

/-- Why a word is no command on its channel. Each raises ILLEGAL_COMMAND (R70, R116). -/
inductive DecodeError where
  /-- Opcode 0x0 or 0xB to 0xE (R71). -/
  | reservedOpcode
  /-- A 1 in a reserved-zero bit (R72). -/
  | reservedBit
  /-- TICK on `cmd` (R75). -/
  | tickOnCmd
  /-- A word other than TICK on `tick` (R75). -/
  | otherOnTick
  /-- Mode code 3 (R73). -/
  | modeCodeThree
deriving DecidableEq, Repr

/-- The last line of R70: the command of row `op` with its operands, after the check of its mode code (R73). -/
def assembleOperands (op : Opcode) (w : Word) : Except DecodeError Instr :=
  match op with
  | .gettime => .ok .gettime
  | .settime => .ok (.settime (hoursField w) (minutesField w))
  | .getrem => .ok .getrem
  | .setrem => .ok (.setrem (secondsField w))
  | .start => if modeCodeNamed (modeFieldM w) then .ok (.start (modeFieldM w)) else .error .modeCodeThree
  | .stop => .ok .stop
  | .ack => .ok .ack
  | .peek => .ok .peek
  | .duty =>
    if modeCodeNamed (modeFieldQ w) then .ok (.duty (modeFieldQ w) (secondsField w)) else .error .modeCodeThree
  | .status => .ok .status
  | .tick => .ok .tick

/-- `Decode(w, ch)` of R70, its checks in R70's order. -/
def decode (ch : Channel) (w : Word) : Except DecodeError Instr :=
  match opcodeOfBits (opcodeField w) with
  | none => .error .reservedOpcode
  | some op =>
    if w &&& op.mask ≠ op.pattern then .error .reservedBit
    else if op = .tick ∧ ch = .cmd then .error .tickOnCmd
    else if op ≠ .tick ∧ ch = .tick then .error .otherOnTick
    else assembleOperands op w

/-! The encoder. -/

/-- The row of R69 a command belongs to. -/
def Instr.opcode : Instr → Opcode
  | .gettime => .gettime
  | .settime _ _ => .settime
  | .getrem => .getrem
  | .setrem _ => .setrem
  | .start _ => .start
  | .stop => .stop
  | .ack => .ack
  | .peek => .peek
  | .duty _ _ => .duty
  | .status => .status
  | .tick => .tick

/-- Format N (R63): the opcode, every other bit 0. -/
def encodeN (op : Opcode) : Word := op.bits.setWidth 32 <<< 28

/-- Format T (R64): hours at 20:16, minutes at 13:8. -/
def encodeT (op : Opcode) (hh : BitVec 5) (mm : BitVec 6) : Word :=
  op.bits.setWidth 32 <<< 28 ||| hh.setWidth 32 <<< 16 ||| mm.setWidth 32 <<< 8

/-- Format R (R65): seconds at 23:0. -/
def encodeR (op : Opcode) (sss : BitVec 24) : Word := op.bits.setWidth 32 <<< 28 ||| sss.setWidth 32

/-- Format M (R66): the mode code at 1:0. -/
def encodeM (op : Opcode) (md : BitVec 2) : Word := op.bits.setWidth 32 <<< 28 ||| md.setWidth 32

/-- Format Q (R67): the mode code at 25:24, the queried seconds at 23:0. -/
def encodeQ (op : Opcode) (md : BitVec 2) (rrr : BitVec 24) : Word :=
  op.bits.setWidth 32 <<< 28 ||| md.setWidth 32 <<< 24 ||| rrr.setWidth 32

/-- The word of a command (R62 to R67, R77). -/
def encode : Instr → Word
  | .gettime => encodeN .gettime
  | .settime hh mm => encodeT .settime hh mm
  | .getrem => encodeN .getrem
  | .setrem sss => encodeR .setrem sss
  | .start md => encodeM .start md
  | .stop => encodeN .stop
  | .ack => encodeN .ack
  | .peek => encodeN .peek
  | .duty md rrr => encodeQ .duty md rrr
  | .status => encodeN .status
  | .tick => encodeN .tick

/-- The channel a command is legal on (R75, R127). -/
def Instr.channel : Instr → Channel
  | .gettime => .cmd
  | .settime _ _ => .cmd
  | .getrem => .cmd
  | .setrem _ => .cmd
  | .start _ => .cmd
  | .stop => .cmd
  | .ack => .cmd
  | .peek => .cmd
  | .duty _ _ => .cmd
  | .status => .cmd
  | .tick => .tick

/-! Words as the opcode table numbers them, and words of a platform bus. -/

/-- The channel a word of the opcode table is delivered on: opcode 0xF is the TICK row, whose channel is `tick`
(R69, R75); every other goes to `cmd`. DEDUCED, safe (log 16). -/
def deliveryChannel (w : Word) : Channel := if opcodeField w = Opcode.tick.bits then .tick else .cmd

/-- The command word whose low `nbits` bits are those of `w` and whose other bits are 0. -/
def tableWord (nbits w : Nat) : Word := BitVec.ofNat 32 (w % 2 ^ nbits)

/-- What the decoder reads from a word of the opcode table, delivered on its channel. -/
def decodeTableWord (nbits w : Nat) : Option Instr :=
  match decode (deliveryChannel (tableWord nbits w)) (tableWord nbits w) with
  | .ok i => some i
  | .error _ => none

end Sys2Proof
end

