-- ==== Sys2Proof/Machine/Operands.lean ====
section
/-! DEFINITION. The legal ranges of the operands (R68, R118) and the layouts of the responses (R74). -/

namespace Sys2Proof.Machine

/-! Legal ranges, checked after decoding by the command itself (R70, R118). -/

/-- SETTIME's range: `hours ≤ 23` and `minutes ≤ 59` (R83). -/
def timeInRange (hh : BitVec 5) (mm : BitVec 6) : Bool := hh ≤ 23 && mm ≤ 59

/-- SETREM's range for a `cd.rem` of `width` bits: `secs < 2^width` (R87). That 0 fits every width is said first, so
that `SETREM 0` runs by evaluation while the width is OPEN; `secsFit_iff` says that it adds nothing. -/
def secsFit (width : Nat) (secs : BitVec 24) : Bool := secs == 0 || secs.toNat < 2 ^ width

/-! Responses: "every bit not named below is 0" (R74). -/

/-- `zext_32` of a Boolean, `true` = 1 (R15). -/
def boolWord (b : Bool) : Word := (BitVec.ofBool b).setWidth 32

/-- GETTIME's response (R74, R82). -/
def timeWord (c : Clock) : Word := c.h.setWidth 32 <<< 16 ||| c.m.setWidth 32 <<< 8 ||| c.s.setWidth 32

/-- GETREM's response (R74, R88). -/
def remWord (rem : BitVec 24) : Word := rem.setWidth 32

/-- STATUS's response (R74, R93). -/
def statusWord (cd : Countdown) (mode : PowerMode) (out : Outputs) : Word :=
  boolWord cd.active ||| boolWord cd.complete <<< 1 ||| mode.code.setWidth 32 <<< 2 ||| boolWord out.heat <<< 4
    ||| boolWord out.plate <<< 5

/-! The four bytes of a word on a platform bus (R47). -/

/-- The word a 32-bit bus write delivers, its bytes given by rising bus address. -/
def wordOfBus (e : Config.BusEndian) (b0 b1 b2 b3 : Byte) : Word :=
  match e with
  | .little => b3 ++ b2 ++ b1 ++ b0
  | .big => b0 ++ b1 ++ b2 ++ b3

/-- The byte of a word that lies at bus address `k` of its four (R47). -/
def busByte (e : Config.BusEndian) (w : Word) (k : Fin 4) : Byte :=
  match e with
  | .little => w.extractLsb' (8 * k.val) 8
  | .big => w.extractLsb' (8 * (3 - k.val)) 8

end Sys2Proof.Machine
end

