-- ==== Sys2Proof/Machine/Ops.lean ====
section
/-! DEFINITION. The shared operations: responding, taking a fault, reset (the only return from one), the actuator
driver, and which arrival the block takes next. -/

namespace Sys2Proof.Machine

/-! The response channel. -/

/-- `respond(v)` of R17. -/
def State.respond (s : State) (v : Word) : State := { s with rsp := some v }

/-- A transaction that does not call `respond`: no response is given (R17, R74). -/
def State.silent (s : State) : State := { s with rsp := none }

/-- The response as a platform bus carries it: its byte at bus address `k` (R47). -/
def State.rspBusByte (s : State) (k : Fin 4) : Option Byte := s.rsp.map fun w => busByte Config.busEndian w k

/-! Faults. -/

/-- `raise Fault(kind, info)` (R17, R117): the fault register is written, nothing else of R21 is, and no response is
given. `s` is the state the transaction began in. -/
def State.raiseFault (s : State) (kind : FaultKind) (info : Word) : State :=
  { s with fault := { kind := kind, info := info }, rsp := none }

/-- "once `fault.kind != NONE` the block takes no further step until reset" (R32, R117). -/
def State.stopped (s : State) : Bool := s.fault.kind != .none

/-- `Reset(tick_source_ok)` of R135, the only way out of a fault (R124). It abandons a pending tick (R134). What is
still to arrive is the outside world's and stays. -/
def State.resetBlock (s : State) (tickSourceOk : Bool) : State :=
  { s with
    clk := { h := Config.clockResetHours, m := Config.clockResetMinutes, s := Config.clockResetSeconds }
    cd := { rem := 0, active := false, complete := false }
    mode := .high
    out := { heat := false, plate := false }
    fault := { kind := if tickSourceOk then .none else .startupMisconfig, info := 0 }
    rsp := none
    pendingTick := none }

/-! The actuator driver (43_actuator.md). -/

/-- `ForceOff()` (R105): both outputs de-energised. -/
def State.forceOff (s : State) : State := { s with out := { heat := false, plate := false } }

/-- `ApplyHeatingDecision(b)` (R106): the heating element takes the level `b`, the plate keeps its own. -/
def State.applyHeatingDecision (s : State) (b : Bool) : State := { s with out := { s.out with heat := b } }

/-- `ActuatorStart(m)` (R107): the mode is recorded and the plate energised, the heating element is not. -/
def State.actuatorStart (s : State) (m : PowerMode) : State :=
  { s with mode := m, out := { s.out with plate := true } }

/-- The pin `pin_heat` (R29, R108). -/
def State.pinHeat (s : State) : Bool := s.out.heat

/-- The pin `pin_plate` (R29, R108). -/
def State.pinPlate (s : State) : Bool := s.out.plate

/-- "currently forced off" (R30, C5). -/
def Outputs.forcedOff (o : Outputs) : Bool := !o.heat && !o.plate

/-! The inputs. -/

/-- The delivery of one command on the channel it is legal on (R45, R75, R127). -/
def arrivalOf (i : Instr) : Arrival :=
  match i.channel with
  | .cmd => .cmd (encode i)
  | .tick => .tick (encode i)

/-- What the block does next. -/
inductive Taken where
  /-- No transaction: nothing has arrived, or the block is stopped. -/
  | nothing
  /-- The reset step. -/
  | reset (tickSourceOk : Bool)
  /-- The transaction of the word `w` of channel `ch`. -/
  | word (ch : Channel) (w : Word)
  /-- A write to `cmd` that is outside the spec (R48). -/
  | narrowWrite
deriving DecidableEq, Repr

/-- On a stopped block what comes next, a pending tick first, is not performed and gets no response (R117). -/
def State.discardArrival (s : State) : State :=
  match s.pendingTick, s.arrivals with
  | some _, _ => { s with pendingTick := none, rsp := none }
  | none, _ :: rest => { s with arrivals := rest, rsp := none }
  | none, [] => s

/-- The next transaction of a block that is not stopped and has no tick pending. A simultaneous pair is taken one
after the other, in the order `SIMUL_ORDER` gives (R121); a tick that arrives during a command becomes pending
(R120). -/
def State.takeArrival (s : State) : Taken × State :=
  match s.arrivals with
  | [] => (.nothing, s)
  | .cmd w :: rest => (.word .cmd w, { s with arrivals := rest })
  | .tick w :: rest => (.word .tick w, { s with arrivals := rest })
  | .simultaneous c t :: rest =>
    if Config.simulTickFirst s.simulCount then
      (.word .tick t, { s with arrivals := .cmd c :: rest, simulCount := s.simulCount + 1 })
    else
      (.word .cmd c, { s with arrivals := .tick t :: rest, simulCount := s.simulCount + 1 })
  | .tickDuringCmd c t :: rest => (.word .cmd c, { s with arrivals := rest, pendingTick := some t })
  | .busWrite b0 b1 b2 b3 :: rest =>
    (.word .cmd (wordOfBus Config.busEndian b0 b1 b2 b3), { s with arrivals := rest })
  | .reset ok :: rest => (.reset ok, { s with arrivals := rest })
  | .narrowWrite :: _ => (.narrowWrite, s)

/-- What the block takes next, and the state in which that begins. A reset may come at any time, also on a stopped
block, and before a pending tick (R134); a stopped block takes no word (R117); a pending tick is taken "before any
further command" (R120). -/
def State.fetch (s : State) : Taken × State :=
  match s.arrivals with
  | .reset ok :: rest => (.reset ok, { s with arrivals := rest })
  | .narrowWrite :: _ => (.narrowWrite, s)
  | _ =>
    if s.stopped then (.nothing, s.discardArrival)
    else
      match s.pendingTick with
      | some t => (.word .tick t, { s with pendingTick := none })
      | none => s.takeArrival

/-- The transaction of a word that is no command: ILLEGAL_COMMAND with `fault.info = w` (R70 to R76, R116). -/
def State.illegalCommand (s : State) (w : Word) : State := s.raiseFault .illegalCommand w

end Sys2Proof.Machine
end

