-- ==== Sys2Proof/Machine/Clock.lean ====
section
/-! DEFINITION. wall_clock_24h (40_clock.md): ClockAdvance, GETTIME, SETTIME. -/

namespace Sys2Proof.Machine

/-- `ClockAdvance()` on the clock's registers (R81). -/
def Clock.advance (c : Clock) : Clock :=
  if c.s < 59 then { c with s := c.s + 1 }
  else if c.m < 59 then { c with m := c.m + 1, s := 0 }
  else if c.h < 23 then { h := c.h + 1, m := 0, s := 0 }
  else { h := 0, m := 0, s := 0 }

/-- `ClockAdvance()` in the block (R81): it touches the clock only. -/
def State.clockAdvance (s : State) : State := { s with clk := s.clk.advance }

/-- GETTIME (R82). -/
def execGettime (s : State) : Host.Outcome State Fault Refusal := .next (s.respond (timeWord s.clk))

/-- SETTIME (R83): hours and minutes are overwritten, seconds are left untouched; outside the range it raises
CONTRACT_VIOLATION with the command word (R118, D13), which is `encode` of the command (log 13). -/
def execSettime (hh : BitVec 5) (mm : BitVec 6) (s : State) : Host.Outcome State Fault Refusal :=
  if timeInRange hh mm then .next { s with clk := { s.clk with h := hh, m := mm } }.silent
  else .next (s.raiseFault .contractViolation (encode (.settime hh mm)))

end Sys2Proof.Machine
end

