-- ==== Sys2Proof/Machine/Duty.lean ====
section
/-! DEFINITION. pwm_duty_scheduler (42_duty_scheduler.md): the Duty Table, Decide, DUTY. -/

namespace Sys2Proof.Machine

/-- The Duty Table, one row per `PowerMode`, ten positions of one second, never mutated (R31, R42). Taken as stated
(D29); UNVERIFIED, unsafe (log 10). -/
def dutyTable : PowerMode → Vector Bool 10
  | .high => #v[true, true, true, true, true, true, true, true, true, true]
  | .low => #v[true, true, true, true, true, true, false, false, false, false]
  | .defrost => #v[true, true, true, false, false, false, false, false, false, false]

/-- `position = 9 − (remainingSeconds mod 10)` (R101). -/
def dutyPosition (r : Nat) : Fin 10 := ⟨9 - r % 10, by omega⟩

/-- `Decide(m, r)` (R101): is the heating element on? -/
def decideHeating (m : PowerMode) (r : Nat) : Bool := (dutyTable m)[dutyPosition r]

/-- DUTY (R103): a query that names its own mode. Code 3 names none and raises ILLEGAL_COMMAND with the command word
(R73); decoding refuses it before (log 12). -/
def execDuty (md : BitVec 2) (rrr : BitVec 24) (s : State) : Host.Outcome State Fault Refusal :=
  match modeOf md with
  | some m => .next (s.respond (boolWord (decideHeating m rrr.toNat)))
  | none => .next (s.illegalCommand (encode (.duty md rrr)))

end Sys2Proof.Machine
end

