-- ==== Sys2Proof/Machine/Countdown.lean ====
section
/-! DEFINITION. The countdown core (41_countdown.md): SETREM, GETREM, START, STOP, ACK, PEEK, STATUS, CountdownTick. -/

namespace Sys2Proof.Machine

/-- SETREM on a block whose `cd.rem` is `width` bits wide (R87): a value that does not fit raises CONTRACT_VIOLATION
with the command word (R118, D12), which is `encode` of the command (log 13). -/
def State.setRemaining (width : Nat) (sss : BitVec 24) (s : State) : State :=
  if secsFit width sss then { s with cd := { s.cd with rem := sss } }.silent
  else s.raiseFault .contractViolation (encode (.setrem sss))

/-- SETREM (R87): valid in any state, neither flag changes. -/
def execSetrem (sss : BitVec 24) (s : State) : Host.Outcome State Fault Refusal :=
  .next (s.setRemaining Config.wRem sss)

/-- GETREM (R88). -/
def execGetrem (s : State) : Host.Outcome State Fault Refusal := .next (s.respond (remWord s.cd.rem))

/-- START (R89): `cd.active` set, `cd.complete` cleared, then `ActuatorStart(m)`. Code 3 names no mode and raises
ILLEGAL_COMMAND with the command word (R73); decoding refuses it before (log 12). -/
def execStart (md : BitVec 2) (s : State) : Host.Outcome State Fault Refusal :=
  match modeOf md with
  | some m => .next ({ s with cd := s.cd.started }.actuatorStart m).silent
  | none => .next (s.illegalCommand (encode (.start md)))

/-- STOP (R90): `cd.active` cleared, then `ForceOff()`; `cd.rem` and `cd.complete` are kept. -/
def execStop (s : State) : Host.Outcome State Fault Refusal := .next { s with cd := s.cd.halted }.forceOff.silent

/-- ACK (R91). -/
def execAck (s : State) : Host.Outcome State Fault Refusal := .next { s with cd := s.cd.acknowledged }.silent

/-- PEEK (R92). -/
def execPeek (s : State) : Host.Outcome State Fault Refusal := .next (s.respond (boolWord s.cd.complete))

/-- STATUS (R93). -/
def execStatus (s : State) : Host.Outcome State Fault Refusal :=
  .next (s.respond (statusWord s.cd s.mode s.out))

/-- `CountdownTick()` (R94). A zero-length active countdown never expires and keeps its outputs (R96, R97). -/
def State.countdownTick (s : State) : State :=
  if !s.cd.active then s
  else if s.cd.rem = 0 then s
  else if s.cd.rem - 1 = 0 then { s with cd := { s.cd with rem := s.cd.rem - 1 }.expired }.forceOff
  else
    { s with cd := { s.cd with rem := s.cd.rem - 1 } }.applyHeatingDecision
      (decideHeating s.mode (s.cd.rem - 1).toNat)

end Sys2Proof.Machine
end

