-- ==== Sys2Proof/Machine/Tick.lean ====
section
/-! DEFINITION. The tick (44_tick.md). -/

namespace Sys2Proof.Machine

/-- TICK (R111): the clock advances, then the countdown ticks (R112). It gives no response and never faults. -/
def execTick (s : State) : Host.Outcome State Fault Refusal := .next s.clockAdvance.countdownTick.silent

end Sys2Proof.Machine
end

