-- ==== Sys2Proof/Machine/Dispatch.lean ====
section
/-! DEFINITION. One arm per command of R69. -/

namespace Sys2Proof.Machine

def exec (i : Instr) (s : State) : Host.Outcome State Fault Refusal :=
  match i with
  | .gettime => Sys2Proof.Machine.execGettime s
  | .settime hh mm => Sys2Proof.Machine.execSettime hh mm s
  | .getrem => Sys2Proof.Machine.execGetrem s
  | .setrem sss => Sys2Proof.Machine.execSetrem sss s
  | .start md => Sys2Proof.Machine.execStart md s
  | .stop => Sys2Proof.Machine.execStop s
  | .ack => Sys2Proof.Machine.execAck s
  | .peek => Sys2Proof.Machine.execPeek s
  | .duty md rrr => Sys2Proof.Machine.execDuty md rrr s
  | .status => Sys2Proof.Machine.execStatus s
  | .tick => Sys2Proof.Machine.execTick s

end Sys2Proof.Machine
end

