-- ==== Sys2Proof/Machine/Step.lean ====
section
/-! DEFINITION. One step: the next transaction of the block, taken whole (R11, R50, R55). -/

namespace Sys2Proof.Machine

/-- The transaction of one word of a channel (R45, R70): the command it decodes to, or ILLEGAL_COMMAND. -/
def State.runWord (s : State) (ch : Channel) (w : Word) : Host.Outcome State Fault Refusal :=
  match decode ch w with
  | .ok i => exec i s
  | .error _ => .next (s.illegalCommand w)

/-- One step: take what `fetch` gives and perform it. With nothing to take the block "is idle and holds its state"
(R133). -/
def step (s : State) : Host.Outcome State Fault Refusal :=
  match s.fetch with
  | (.nothing, t) => .next t
  | (.reset ok, t) => .next (t.resetBlock ok)
  | (.word ch w, t) => t.runWord ch w
  | (.narrowWrite, _) => .refused .narrowWriteOutsideSpec

/-- `s` with the word `w` of the opcode table arriving next on its channel, and no tick pending before it (log 2). -/
def State.withFetchWord (s : State) (nbits w : Nat) : State :=
  { s with
    arrivals :=
      (match deliveryChannel (tableWord nbits w) with
        | .cmd => Arrival.cmd (tableWord nbits w)
        | .tick => Arrival.tick (tableWord nbits w)) :: s.arrivals
    pendingTick := none }

end Sys2Proof.Machine
end

