-- ==== Sys2Proof/Machine/Assembler.lean ====
section
/-! DEFINITION. The assembler of R77 and the pseudo-instructions of R78: a line of text becomes the commands it stands
for. What R77 leaves unsaid of the text (blanks, blank lines) is a DESIGN CHOICE, safe (log 14). -/

namespace Sys2Proof.Machine

/-- A line of assembly, its operands as they are written (R77, R78). -/
inductive AsmLine where
  | gettime
  | settime (hh mm : Nat)
  | getrem
  | setrem (s : Nat)
  | start (md : List Char)
  | stop
  | ack
  | peek
  | duty (md : List Char) (r : Nat)
  | status
  | tick
  /-- `TICK*n`: "`n` consecutive ticks with no command between them". -/
  | ticks (n : Nat)
  /-- `COOK s, md` (R78). -/
  | cook (s : Nat) (md : List Char)
  /-- `CANCEL` (R78). -/
  | cancel
deriving DecidableEq, Repr

/-- "the names `HIGH`, `LOW`, `DEFROST` (any letter case), standing for the codes 0, 1, 2" (R77). -/
def modeOfName (name : List Char) : Option PowerMode :=
  if name.map Char.toUpper = "HIGH".toList then some .high
  else if name.map Char.toUpper = "LOW".toList then some .low
  else if name.map Char.toUpper = "DEFROST".toList then some .defrost
  else none

/-- SETREM's operand, refused where it does not fit its field (R77). -/
def assembleSetrem (s : Nat) : Option Instr := if s < 2 ^ 24 then some (.setrem (BitVec.ofNat 24 s)) else none

/-- START's operand, refused where the name is unknown (R77). -/
def assembleStart (md : List Char) : Option Instr := (modeOfName md).map fun m => .start m.code

/-- The commands a line stands for, or `none` where "an assembler refuses" it (R77). A pseudo-instruction is two
separate commands (R78). -/
def AsmLine.assemble : AsmLine → Option (List Instr)
  | .gettime => some [.gettime]
  | .settime hh mm =>
    if hh ≤ 31 ∧ mm ≤ 63 then some [.settime (BitVec.ofNat 5 hh) (BitVec.ofNat 6 mm)] else none
  | .getrem => some [.getrem]
  | .setrem s => (assembleSetrem s).map fun i => [i]
  | .start md => (assembleStart md).map fun i => [i]
  | .stop => some [.stop]
  | .ack => some [.ack]
  | .peek => some [.peek]
  | .duty md r =>
    if r < 2 ^ 24 then (modeOfName md).map fun m => [.duty m.code (BitVec.ofNat 24 r)] else none
  | .status => some [.status]
  | .tick => some [.tick]
  | .ticks n => some (List.replicate n .tick)
  | .cook s md =>
    match assembleSetrem s, assembleStart md with
    | some i, some j => some [i, j]
    | _, _ => none
  | .cancel => some [.stop, .setrem 0]

/-! Reading a line. -/

/-- Is it a blank between tokens? -/
def isBlank (c : Char) : Bool := c = ' ' || c = '\t'

/-- The text without blanks at its two ends. -/
def trimBlanks (cs : List Char) : List Char := ((cs.dropWhile isBlank).reverse.dropWhile isBlank).reverse

/-- The pieces of the text between its commas: always at least one. -/
def splitCommas (cs : List Char) : List (List Char) :=
  cs.foldr (fun c parts => if c = ',' then [] :: parts else (c :: parts.headD []) :: parts.tail) [[]]

/-- The value of one digit in base 10 or 16. -/
def digitValue (base : Nat) (c : Char) : Option Nat :=
  let v :=
    if '0' ≤ c ∧ c ≤ '9' then c.toNat - '0'.toNat
    else if 'a' ≤ c ∧ c ≤ 'f' then c.toNat - 'a'.toNat + 10
    else if 'A' ≤ c ∧ c ≤ 'F' then c.toNat - 'A'.toNat + 10
    else base
  if v < base then some v else none

/-- A numeral without its base sign; an empty one is none. -/
def readDigits (base : Nat) (cs : List Char) : Option Nat :=
  if cs = [] then none
  else cs.foldl (fun acc c => acc.bind fun n => (digitValue base c).map fun d => n * base + d) (some 0)

/-- "Numbers are decimal or `0x` hexadecimal" (R77). -/
def readNumber : List Char → Option Nat
  | '0' :: 'x' :: ds => readDigits 16 ds
  | ds => readDigits 10 ds

/-- The operands of a line, none where nothing but blanks follows the mnemonic. -/
def readOperands (cs : List Char) : List (List Char) :=
  if trimBlanks cs = [] then [] else (splitCommas cs).map trimBlanks

/-- A line of the forms of R77 and R78, from its mnemonic and its operands. -/
def readForm (mnemonic : List Char) (ops : List (List Char)) : Option AsmLine :=
  match ops with
  | [] =>
    if mnemonic = "GETTIME".toList then some .gettime
    else if mnemonic = "GETREM".toList then some .getrem
    else if mnemonic = "STOP".toList then some .stop
    else if mnemonic = "ACK".toList then some .ack
    else if mnemonic = "PEEK".toList then some .peek
    else if mnemonic = "STATUS".toList then some .status
    else if mnemonic = "TICK".toList then some .tick
    else if mnemonic = "CANCEL".toList then some .cancel
    else if mnemonic.take 5 = "TICK*".toList then (readDigits 10 (mnemonic.drop 5)).map .ticks
    else none
  | [a] =>
    if mnemonic = "SETREM".toList then (readNumber a).map .setrem
    else if mnemonic = "START".toList then some (.start a)
    else none
  | [a, b] =>
    if mnemonic = "SETTIME".toList then
      (readNumber a).bind fun hh => (readNumber b).map fun mm => .settime hh mm
    else if mnemonic = "DUTY".toList then (readNumber b).map fun r => .duty a r
    else if mnemonic = "COOK".toList then (readNumber a).map fun s => .cook s b
    else none
  | _ => none

/-- The commands of one line of text, `;` and what follows it being a comment (R77). A line with nothing on it stands
for no command. -/
def assembleText (line : String) : Option (List Instr) :=
  let text := trimBlanks (line.toList.takeWhile fun c => c ≠ ';')
  if text = [] then some []
  else
    (readForm (text.takeWhile fun c => !isBlank c) (readOperands (text.dropWhile fun c => !isBlank c))).bind
      AsmLine.assemble

end Sys2Proof.Machine
end

