-- ==== Sys2Proof/Safety.lean ====
section
/-! DEFINITION. What a safe run is, and the terms claims about the block are stated in. -/

namespace Sys2Proof.Machine

/-- No fault is recorded (R32, R117). -/
def State.NoFault (s : State) : Prop := s.fault.kind = .none

/-- The clock invariant of R24: every field within its range. -/
structure Clock.Legal (c : Clock) : Prop where
  h : c.h.toNat ≤ 23
  m : c.m.toNat ≤ 59
  s : c.s.toNat ≤ 59

/-- `t(clk)` of R80, the second of the day. -/
def Clock.secondOfDay (c : Clock) : Nat := 3600 * c.h.toNat + 60 * c.m.toNat + c.s.toNat

/-- The words R116 names, bit by bit as R63 to R67, R71 to R73 and R75 write them: a reserved opcode, a reserved-zero
bit set, mode code 3, TICK on `cmd`, anything but TICK on `tick`. -/
def IllegalWord (ch : Channel) (w : Word) : Prop :=
  w.extractLsb' 28 4 ∈ [0x0#4, 0xB#4, 0xC#4, 0xD#4, 0xE#4] ∨
    (w.extractLsb' 28 4 ∈ [0x1#4, 0x3#4, 0x6#4, 0x7#4, 0x8#4, 0xA#4, 0xF#4] ∧ w &&& 0x0FFFFFFF#32 ≠ 0) ∨
    (w.extractLsb' 28 4 = 0x2#4 ∧ w &&& 0x0FE0C0FF#32 ≠ 0) ∨
    (w.extractLsb' 28 4 = 0x4#4 ∧ w &&& 0x0F000000#32 ≠ 0) ∨
    (w.extractLsb' 28 4 = 0x5#4 ∧ (w &&& 0x0FFFFFFC#32 ≠ 0 ∨ w.extractLsb' 0 2 = 3#2)) ∨
    (w.extractLsb' 28 4 = 0x9#4 ∧ (w &&& 0x0C000000#32 ≠ 0 ∨ w.extractLsb' 24 2 = 3#2)) ∨
    (ch = .cmd ∧ w = 0xF0000000#32) ∨
    (ch = .tick ∧ w ≠ 0xF0000000#32)

/-- The words R118 names: SETTIME with `hours > 23` or `minutes > 59`, SETREM with a value that does not fit. -/
def OutOfRangeWord (w : Word) : Prop :=
  (w &&& 0xFFE0C0FF#32 = 0x20000000#32 ∧ (23 < (w.extractLsb' 16 5).toNat ∨ 59 < (w.extractLsb' 8 6).toNat)) ∨
    (w &&& 0xFF000000#32 = 0x40000000#32 ∧ 2 ^ Config.wRem ≤ (w.extractLsb' 0 24).toNat)

/-- How many of the ten positions a mode is on for, counted from the first (R31). -/
def onPositions : PowerMode → Nat
  | .high => 10
  | .low => 6
  | .defrost => 3

/-- What the fault register may hold (R32, R115, R116, R118): a recorded word is one that raises the recorded kind. -/
def FaultRegister.Explained (f : FaultRegister) : Prop :=
  match f.kind with
  | .none => f.info = 0
  | .illegalCommand => ∃ ch e, decode ch f.info = .error e
  | .contractViolation =>
    (∃ hh mm, decode .cmd f.info = .ok (.settime hh mm) ∧ (23 < hh.toNat ∨ 59 < mm.toNat)) ∨
      ∃ sss, decode .cmd f.info = .ok (.setrem sss) ∧ 2 ^ Config.wRem ≤ sss.toNat
  | .startupMisconfig => f.info = 0

/-- The invariant of the block: R35's clauses, the width of `cd.rem` (R25) and the fault register's meaning. -/
structure State.Inv (s : State) : Prop where
  /-- R24, R35.4. -/
  clock : s.clk.Legal
  /-- R25. -/
  rem : s.cd.rem.toNat < 2 ^ Config.wRem
  /-- R35.1. -/
  flags : ¬(s.cd.active = true ∧ s.cd.complete = true)
  /-- R35.2. -/
  plate : s.out.plate = s.cd.active
  /-- R35.3. -/
  heat : s.out.heat = true → s.cd.active = true
  /-- R32, R115. -/
  fault : s.fault.Explained

/-- All the registers of R21 but the fault register are the same in the two states. -/
structure State.SameRegisters (s t : State) : Prop where
  clk : t.clk = s.clk
  cd : t.cd = s.cd
  mode : t.mode = s.mode
  out : t.out = s.out

/-- The inputs still to come, and the pending tick, are the same in the two states. -/
structure State.SameInputs (s t : State) : Prop where
  arrivals : t.arrivals = s.arrivals
  pendingTick : t.pendingTick = s.pendingTick
  simulCount : t.simulCount = s.simulCount

/-- `s.NextWord ch w u`: in a block that is not stopped, the word `w` of channel `ch` is the next to be taken, and `u`
is `s` less that word. One constructor per way a single word can come next; a simultaneous pair, whose order is free, is
none of them. -/
inductive State.NextWord (s : State) : Channel → Word → State → Prop
  /-- A word on `cmd` (R45). -/
  | cmd {w : Word} {rest : List Arrival} (pending : s.pendingTick = none) (arrives : s.arrivals = .cmd w :: rest) :
    s.NextWord .cmd w { s with arrivals := rest }
  /-- A word on `tick` (R75, R110). -/
  | tick {w : Word} {rest : List Arrival} (pending : s.pendingTick = none) (arrives : s.arrivals = .tick w :: rest) :
    s.NextWord .tick w { s with arrivals := rest }
  /-- A word on `cmd` during which a tick arrives; the tick is pending after it (R120). -/
  | tickDuringCmd {w v : Word} {rest : List Arrival} (pending : s.pendingTick = none)
    (arrives : s.arrivals = .tickDuringCmd w v :: rest) :
    s.NextWord .cmd w { s with arrivals := rest, pendingTick := some v }
  /-- A 32-bit write of a byte bus to `cmd` (R47). -/
  | busWrite {b0 b1 b2 b3 : Byte} {rest : List Arrival} (pending : s.pendingTick = none)
    (arrives : s.arrivals = .busWrite b0 b1 b2 b3 :: rest) :
    s.NextWord .cmd (wordOfBus Config.busEndian b0 b1 b2 b3) { s with arrivals := rest }
  /-- The pending tick, whatever else has arrived but a reset or a narrow write (R120, R134, R48). -/
  | pendingTick {w : Word} (pending : s.pendingTick = some w) (noReset : ∀ ok rest, s.arrivals ≠ .reset ok :: rest)
    (noNarrow : ∀ rest, s.arrivals ≠ .narrowWrite :: rest) : s.NextWord .tick w { s with pendingTick := none }

/-- `n` steps from `s` are a safe run: no step is refused, and no state on the way, the first and the last among them,
records a fault ("a run that reaches it refutes any claim that premises 'no fault recorded'", R117). -/
def State.SafeRun (n : Nat) (s : State) : Prop :=
  ∀ k ≤ n, ∃ t : State, Sys2Proof.core.run k s = .next t ∧ t.NoFault

/-- `s` with `n` ticks, and nothing else, arriving next. -/
def State.withTicks (s : State) (n : Nat) : State :=
  { s with arrivals := List.replicate n (arrivalOf .tick) ++ s.arrivals, pendingTick := none }

end Sys2Proof.Machine
end

