-- ==== Sys2Proof/Certificates/Slice0/Obligations.lean ====
section
/-! DEFINITION. The statements for the provers: what the rules of spec/ say the block does. -/

open Sys2Proof Sys2Proof.Machine

/-! Encoding. -/

/-- Words written out from R69 and R77 decode to the commands they stand for. -/
def Obligations.SpecWordsDecode : Prop :=
  decode .cmd 0x10000000#32 = .ok .gettime ∧ decode .cmd 0x20173B00#32 = .ok (.settime 23 59) ∧
    decode .cmd 0x4000000C#32 = .ok (.setrem 12) ∧ decode .cmd 0x50000001#32 = .ok (.start 1) ∧
    decode .cmd 0x60000000#32 = .ok .stop ∧ decode .cmd 0x9200001D#32 = .ok (.duty 2 29) ∧
    decode .tick 0xF0000000#32 = .ok .tick

/-- Decoding the word of a well-formed command, on its channel, gives the command back. -/
def Obligations.DecodeOfEncode : Prop :=
  ∀ i : Instr, i.wellFormed = true → decode i.channel (encode i) = .ok i

/-- A word that decodes is the word of the command it decodes to, which is well-formed and legal on the channel the word
came on: no two words name one command. -/
def Obligations.EncodeOfDecode : Prop :=
  ∀ (ch : Channel) (w : Word) (i : Instr), decode ch w = .ok i →
    i.wellFormed = true ∧ i.channel = ch ∧ encode i = w

/-- R69: "The rows' match/mask pairs are disjoint, so at most one row selects a word." -/
def Obligations.OpcodeRowsDisjoint : Prop :=
  ∀ (w : Word) (p q : Opcode), w &&& p.mask = p.pattern → w &&& q.mask = q.pattern → p = q

/-- R64: a GETTIME response with its seconds bits cleared and the SETTIME opcode or-ed in is the SETTIME word of the same
hours and minutes. -/
def Obligations.GettimeResponseMakesSettime : Prop :=
  ∀ (s t : State) (v : Word), exec .gettime s = .next t → t.rsp = some v →
    v &&& 0xFFFFFFC0#32 ||| 0x20000000#32 = encode (.settime s.clk.h s.clk.m)

/-- The four bytes of a word, read off a bus in the order of either `BUS_ENDIAN`, make the word again (R47). -/
def Obligations.BusBytesMakeWord : Prop :=
  ∀ (e : Config.BusEndian) (w : Word),
    wordOfBus e (busByte e w 0) (busByte e w 1) (busByte e w 2) (busByte e w 3) = w

/-- R77 and R78: the mode names are HIGH, LOW and DEFROST in any letter case, for the codes 0, 1 and 2, and no other; an
operand that does not fit its field or a mode name it does not know is refused, everything else assembles to the command
of the operands; COOK and CANCEL are two commands each. -/
def Obligations.AssemblerForms : Prop :=
  (∀ name : List Char,
      (modeOfName name = some .high ↔ name.map Char.toUpper = ['H', 'I', 'G', 'H']) ∧
      (modeOfName name = some .low ↔ name.map Char.toUpper = ['L', 'O', 'W']) ∧
      (modeOfName name = some .defrost ↔ name.map Char.toUpper = ['D', 'E', 'F', 'R', 'O', 'S', 'T'])) ∧
    (PowerMode.high.code = 0 ∧ PowerMode.low.code = 1 ∧ PowerMode.defrost.code = 2) ∧
    (AsmLine.gettime.assemble = some [.gettime] ∧ AsmLine.getrem.assemble = some [.getrem] ∧
      AsmLine.stop.assemble = some [.stop] ∧ AsmLine.ack.assemble = some [.ack] ∧
      AsmLine.peek.assemble = some [.peek] ∧ AsmLine.status.assemble = some [.status] ∧
      AsmLine.tick.assemble = some [.tick] ∧ ∀ n, (AsmLine.ticks n).assemble = some (List.replicate n .tick)) ∧
    (∀ hh mm, (AsmLine.settime hh mm).assemble =
      if 31 < hh ∨ 63 < mm then none else some [.settime (BitVec.ofNat 5 hh) (BitVec.ofNat 6 mm)]) ∧
    (∀ n, (AsmLine.setrem n).assemble = if 2 ^ 24 ≤ n then none else some [.setrem (BitVec.ofNat 24 n)]) ∧
    (∀ name m, modeOfName name = some m → (AsmLine.start name).assemble = some [.start m.code]) ∧
    (∀ name, modeOfName name = none →
      (AsmLine.start name).assemble = none ∧ (∀ n, (AsmLine.duty name n).assemble = none) ∧
        ∀ n, (AsmLine.cook n name).assemble = none) ∧
    (∀ name m n, modeOfName name = some m →
      (AsmLine.duty name n).assemble =
        (if 2 ^ 24 ≤ n then none else some [.duty m.code (BitVec.ofNat 24 n)]) ∧
      (AsmLine.cook n name).assemble =
        if 2 ^ 24 ≤ n then none else some [.setrem (BitVec.ofNat 24 n), .start m.code]) ∧
    AsmLine.cancel.assemble = some [.stop, .setrem 0]

/-! Decoding on the channels, and the faults. -/

/-- R116: ILLEGAL_COMMAND, with the word recorded, is raised for exactly the words the rule names. -/
def Obligations.IllegalCommandExactly : Prop :=
  ∀ (s : State) (ch : Channel) (w : Word), s.NoFault →
    ((∃ t, s.runWord ch w = .next t ∧ t.fault = { kind := .illegalCommand, info := w }) ↔ IllegalWord ch w)

/-- R118: CONTRACT_VIOLATION, with the word recorded, is raised for exactly the commands the rule names. -/
def Obligations.ContractViolationExactly : Prop :=
  ∀ (s : State) (ch : Channel) (w : Word), s.NoFault →
    ((∃ t, s.runWord ch w = .next t ∧ t.fault = { kind := .contractViolation, info := w }) ↔
      ch = .cmd ∧ OutOfRangeWord w)

/-- R117: a faulting word performs none of its writes and records its kind and itself, with no response; once a fault
is recorded no register changes and no response is given, whatever arrives but a reset; a reset whose check passes leaves
that condition. -/
def Obligations.FaultStopsBlock : Prop :=
  (∀ (s t : State) (ch : Channel) (w : Word), s.NoFault → s.runWord ch w = .next t → ¬t.NoFault →
      s.SameRegisters t ∧ t.rsp = none ∧ t.fault.info = w ∧
        (t.fault.kind = .illegalCommand ∨ t.fault.kind = .contractViolation)) ∧
    (∀ s t : State, ¬s.NoFault → step s = .next t → (∀ ok rest, s.arrivals ≠ .reset ok :: rest) →
      s.SameRegisters t ∧ t.fault = s.fault ∧ (t = s ∨ t.rsp = none)) ∧
    ∀ (s : State) (rest : List Arrival), s.arrivals = .reset true :: rest → ∃ t, step s = .next t ∧ t.NoFault

/-- The model's choice (log 8): on a stopped block a step drops what arrives, one arrival a step, a pending tick first;
with nothing to drop it holds its state. -/
def Obligations.StoppedBlockDropsArrivals : Prop :=
  (∀ (s : State) (a : Arrival) (rest : List Arrival), ¬s.NoFault → s.pendingTick = none → s.arrivals = a :: rest →
      (∀ ok, a ≠ .reset ok) → a ≠ .narrowWrite → step s = .next { s with arrivals := rest, rsp := none }) ∧
    (∀ (s : State) (w : Word), ¬s.NoFault → s.pendingTick = some w → (∀ ok rest, s.arrivals ≠ .reset ok :: rest) →
      (∀ rest, s.arrivals ≠ .narrowWrite :: rest) → step s = .next { s with pendingTick := none, rsp := none }) ∧
    ∀ s : State, s.pendingTick = none → s.arrivals = [] → step s = .next s

/-- R73 seen by the meanings: a START or DUTY whose mode code is 3, which no word decodes to, would raise
ILLEGAL_COMMAND with its own word. DEDUCED (log 12). -/
def Obligations.ModeCodeThreeRaises : Prop :=
  ∀ (s : State) (rrr : BitVec 24),
    exec (.start 3) s =
        .next { s with fault := { kind := .illegalCommand, info := encode (.start 3) }, rsp := none } ∧
      exec (.duty 3 rrr) s =
        .next { s with fault := { kind := .illegalCommand, info := encode (.duty 3 rrr) }, rsp := none }

/-- R135: from any state, a reset that arrives leaves every register at the value the sequence writes. -/
def Obligations.ResetSequence : Prop :=
  ∀ (s : State) (ok : Bool) (rest : List Arrival), s.arrivals = .reset ok :: rest →
    ∃ t, step s = .next t ∧ t.clk = { h := 0, m := 1, s := 0 } ∧
      t.cd = { rem := 0, active := false, complete := false } ∧ t.mode.code = 0 ∧
      t.out = { heat := false, plate := false } ∧
      t.fault = { kind := if ok then .none else .startupMisconfig, info := 0 }

/-! The commands. -/

/-- R82: GETTIME returns the three fields of one state, hours in bits 20:16, minutes in 13:8, seconds in 5:0, every
other bit 0, and changes no state; a word with its opcode and any other bit set is illegal. -/
def Obligations.GettimeReturnsClock : Prop :=
  encode .gettime = 0x10000000#32 ∧
    (∀ s : State, ∃ v : Word, exec .gettime s = .next { s with rsp := some v } ∧ v.extractLsb' 16 5 = s.clk.h ∧
      v.extractLsb' 8 6 = s.clk.m ∧ v.extractLsb' 0 6 = s.clk.s ∧ v &&& 0xFFE0C0C0#32 = 0) ∧
    ∀ w : Word, w.extractLsb' 28 4 = 0x1#4 → w ≠ 0x10000000#32 → decode .cmd w = .error .reservedBit

/-- R83: SETTIME overwrites hours and minutes, seconds and all else kept; outside its range it raises
CONTRACT_VIOLATION with its word and writes nothing; a reserved bit is illegal. -/
def Obligations.SettimeOverwritesHoursMinutes : Prop :=
  (∀ hh mm, encode (.settime hh mm) = 0x20000000#32 ||| hh.setWidth 32 <<< 16 ||| mm.setWidth 32 <<< 8) ∧
    (∀ (hh : BitVec 5) (mm : BitVec 6) (s : State), hh.toNat ≤ 23 → mm.toNat ≤ 59 →
      exec (.settime hh mm) s = .next { s with clk := { h := hh, m := mm, s := s.clk.s }, rsp := none }) ∧
    (∀ (hh : BitVec 5) (mm : BitVec 6) (s : State), 23 < hh.toNat ∨ 59 < mm.toNat →
      exec (.settime hh mm) s =
        .next { s with fault := { kind := .contractViolation, info := encode (.settime hh mm) }, rsp := none }) ∧
    ∀ w : Word, w.extractLsb' 28 4 = 0x2#4 → w &&& 0x0FE0C0FF#32 ≠ 0 → decode .cmd w = .error .reservedBit

/-- R87: SETREM overwrites `cd.rem` in every state, flags and outputs kept; a value that does not fit the width of
`cd.rem`, whatever that width, raises CONTRACT_VIOLATION with its word and writes nothing; the width of the block's is
`W_REM`; a reserved bit is illegal. -/
def Obligations.SetremOverwritesRemaining : Prop :=
  (∀ sss, encode (.setrem sss) = 0x40000000#32 ||| sss.setWidth 32) ∧
    (∀ (sss : BitVec 24) (s : State), sss.toNat < 2 ^ Config.wRem →
      exec (.setrem sss) s = .next { s with cd := { s.cd with rem := sss }, rsp := none }) ∧
    (∀ (width : Nat) (sss : BitVec 24) (s : State), 2 ^ width ≤ sss.toNat →
      s.setRemaining width sss =
        { s with fault := { kind := .contractViolation, info := encode (.setrem sss) }, rsp := none }) ∧
    (∀ (sss : BitVec 24) (s : State), exec (.setrem sss) s = .next (s.setRemaining Config.wRem sss)) ∧
    ∀ w : Word, w.extractLsb' 28 4 = 0x4#4 → w &&& 0x0F000000#32 ≠ 0 → decode .cmd w = .error .reservedBit

/-- R88: GETREM returns `cd.rem`, its bits from `W_REM` up 0 for a `cd.rem` of `W_REM` bits, and changes no state; a
word with its opcode and any other bit set is illegal. -/
def Obligations.GetremReturnsRemaining : Prop :=
  encode .getrem = 0x30000000#32 ∧
    (∀ s : State, ∃ v : Word, exec .getrem s = .next { s with rsp := some v } ∧ v.toNat = s.cd.rem.toNat ∧
      (s.cd.rem.toNat < 2 ^ Config.wRem → ∀ k, Config.wRem ≤ k → v.getLsbD k = false)) ∧
    ∀ w : Word, w.extractLsb' 28 4 = 0x3#4 → w ≠ 0x30000000#32 → decode .cmd w = .error .reservedBit

/-- R89: START sets `cd.active`, clears `cd.complete`, records the mode and energises the plate, in every state and with
nothing else changed; mode code 3 or a reserved bit is illegal. -/
def Obligations.StartBeginsCycle : Prop :=
  encode (.start PowerMode.high.code) = 0x50000000#32 ∧ encode (.start PowerMode.low.code) = 0x50000001#32 ∧
    encode (.start PowerMode.defrost.code) = 0x50000002#32 ∧
    (∀ (m : PowerMode) (s : State), exec (.start m.code) s =
      .next { s with
        cd := { s.cd with active := true, complete := false }
        mode := m
        out := { s.out with plate := true }
        rsp := none }) ∧
    ∀ w : Word, w.extractLsb' 28 4 = 0x5#4 → (w &&& 0x0FFFFFFC#32 ≠ 0 ∨ w.extractLsb' 0 2 = 3#2) →
      ∃ e, decode .cmd w = .error e

/-- R90: STOP clears `cd.active` and de-energises both outputs, in every state and with nothing else changed; a word
with its opcode and any other bit set is illegal. -/
def Obligations.StopForcesOutputsOff : Prop :=
  encode .stop = 0x60000000#32 ∧
    (∀ s : State, exec .stop s =
      .next { s with cd := { s.cd with active := false }, out := { heat := false, plate := false }, rsp := none }) ∧
    ∀ w : Word, w.extractLsb' 28 4 = 0x6#4 → w ≠ 0x60000000#32 → decode .cmd w = .error .reservedBit

/-- R91: ACK clears `cd.complete` and changes nothing else; a word with its opcode and any other bit set is illegal. -/
def Obligations.AckClearsComplete : Prop :=
  encode .ack = 0x70000000#32 ∧
    (∀ s : State, exec .ack s = .next { s with cd := { s.cd with complete := false }, rsp := none }) ∧
    ∀ w : Word, w.extractLsb' 28 4 = 0x7#4 → w ≠ 0x70000000#32 → decode .cmd w = .error .reservedBit

/-- R92: PEEK returns `cd.complete` in bit 0, every other bit 0, and does not clear it; a word with its opcode and any
other bit set is illegal. -/
def Obligations.PeekReturnsComplete : Prop :=
  encode .peek = 0x80000000#32 ∧
    (∀ s : State, exec .peek s = .next { s with rsp := some (if s.cd.complete then 1 else 0) }) ∧
    ∀ w : Word, w.extractLsb' 28 4 = 0x8#4 → w ≠ 0x80000000#32 → decode .cmd w = .error .reservedBit

/-- R93: STATUS returns the two flags, the mode's code and the two outputs at bits 0, 1, 3:2, 4 and 5, every other bit 0,
and changes no state; a word with its opcode and any other bit set is illegal. -/
def Obligations.StatusReturnsFlags : Prop :=
  encode .status = 0xA0000000#32 ∧
    (∀ s : State, ∃ v : Word, exec .status s = .next { s with rsp := some v } ∧
      v.toNat = s.cd.active.toNat + 2 * s.cd.complete.toNat + 4 * s.mode.code.toNat + 16 * s.out.heat.toNat +
        32 * s.out.plate.toNat) ∧
    ∀ w : Word, w.extractLsb' 28 4 = 0xA#4 → w ≠ 0xA0000000#32 → decode .cmd w = .error .reservedBit

/-- R31 and R101: a row of the Duty Table is on for the mode's first 10, 6 or 3 positions, and the decision is on exactly
when the position `9 − (r mod 10)` is among them. -/
def Obligations.DecideByPosition : Prop :=
  (∀ (m : PowerMode) (p : Fin 10), (dutyTable m)[p] = true ↔ p.val < onPositions m) ∧
    ∀ (m : PowerMode) (r : Nat), decideHeating m r = true ↔ 9 - r % 10 < onPositions m

/-- R103: DUTY returns the decision for its own mode and value in bit 0, every other bit 0, and changes no state; no
value of `r` faults; mode code 3 or a reserved bit is illegal. -/
def Obligations.DutyReturnsDecision : Prop :=
  (∀ md rrr, encode (.duty md rrr) = 0x90000000#32 ||| md.setWidth 32 <<< 24 ||| rrr.setWidth 32) ∧
    (∀ (m : PowerMode) (rrr : BitVec 24) (s : State), exec (.duty m.code rrr) s =
      .next { s with rsp := some (if 9 - rrr.toNat % 10 < onPositions m then 1 else 0) }) ∧
    ∀ w : Word, w.extractLsb' 28 4 = 0x9#4 → (w &&& 0x0C000000#32 ≠ 0 ∨ w.extractLsb' 24 2 = 3#2) →
      ∃ e, decode .cmd w = .error e

/-! The tick. -/

/-- R81: the cascade, field by field. -/
def Obligations.ClockAdvanceCascades : Prop :=
  ∀ c : Clock,
    (c.s.toNat < 59 → c.advance.s.toNat = c.s.toNat + 1 ∧ c.advance.m = c.m ∧ c.advance.h = c.h) ∧
      (59 ≤ c.s.toNat → c.advance.s = 0 ∧
        (c.m.toNat < 59 → c.advance.m.toNat = c.m.toNat + 1 ∧ c.advance.h = c.h) ∧
        (59 ≤ c.m.toNat → c.advance.m = 0 ∧
          (c.h.toNat < 23 → c.advance.h.toNat = c.h.toNat + 1) ∧ (23 ≤ c.h.toNat → c.advance.h = 0)))

/-- R80: a legal clock stays legal and its second of the day moves on by one, modulo 86400. -/
def Obligations.ClockAdvancesOneSecond : Prop :=
  ∀ c : Clock, c.Legal → c.advance.Legal ∧ c.advance.secondOfDay = (c.secondOfDay + 1) % 86400

/-- R111 and R94: a TICK, which decodes on `tick` only, advances the clock and then ticks the countdown, each part as if
alone, in every state; the mode, the fault register and the inputs stay. -/
def Obligations.TickAdvancesBothParts : Prop :=
  encode .tick = 0xF0000000#32 ∧ decode .tick 0xF0000000#32 = .ok .tick ∧
    decode .cmd 0xF0000000#32 = .error .tickOnCmd ∧
    ∀ s : State, ∃ t, exec .tick s = .next t ∧ t.clk = s.clk.advance ∧ t.mode = s.mode ∧ t.fault = s.fault ∧
      t.rsp = none ∧ s.SameInputs t ∧
      (s.cd.active = false ∨ s.cd.rem = 0 → t.cd = s.cd ∧ t.out = s.out) ∧
      (s.cd.active = true → s.cd.rem = 1 →
        t.cd = { rem := 0, active := false, complete := true } ∧ t.out = { heat := false, plate := false }) ∧
      (s.cd.active = true → 2 ≤ s.cd.rem.toNat →
        t.cd.rem.toNat = s.cd.rem.toNat - 1 ∧ t.cd.active = true ∧ t.cd.complete = s.cd.complete ∧
          t.out = { s.out with heat := decideHeating s.mode (s.cd.rem.toNat - 1) })

/-- R112: the order of the two parts of a TICK cannot be observed. -/
def Obligations.TickPartsCommute : Prop :=
  ∀ s : State, s.clockAdvance.countdownTick = s.countdownTick.clockAdvance

/-- R114, R80: `n` ticks advance a legal clock by `n` seconds modulo 86400, and 86400 ticks bring it back. -/
def Obligations.TicksAdvanceClock : Prop :=
  ∀ (n : Nat) (s : State), s.NoFault → s.clk.Legal →
    ∃ t : State, Sys2Proof.core.run n (s.withTicks n) = .next t ∧ t.clk.Legal ∧
      t.clk.secondOfDay = (s.clk.secondOfDay + n) % 86400 ∧ (n % 86400 = 0 → t.clk = s.clk) ∧
      t.arrivals = s.arrivals

/-- R114, R104: `n` ticks of a Running countdown of `N` seconds leave `N − n`, with the heating element as the scheduler
decides for it, while `n < N`, and from `n = N` on the countdown is Expired with both outputs off. -/
def Obligations.TicksCountDown : Prop :=
  ∀ (n : Nat) (s : State), s.NoFault → s.cd.active = true → 1 ≤ s.cd.rem.toNat →
    ∃ t : State, Sys2Proof.core.run n (s.withTicks n) = .next t ∧ t.mode = s.mode ∧
      (n < s.cd.rem.toNat →
        t.cd.rem.toNat = s.cd.rem.toNat - n ∧ t.cd.active = true ∧ t.cd.complete = s.cd.complete ∧
          t.out.plate = s.out.plate ∧
          (1 ≤ n → t.out.heat = decideHeating s.mode (s.cd.rem.toNat - n))) ∧
      (s.cd.rem.toNat ≤ n →
        t.cd = { rem := 0, active := false, complete := true } ∧ t.out = { heat := false, plate := false })

/-- R96, R97, R99: however many ticks pass, a zero-length active countdown never expires and keeps its outputs, and an
Idle or Expired countdown stays as it is. -/
def Obligations.TicksLeaveOtherStates : Prop :=
  ∀ (n : Nat) (s : State), s.NoFault → s.cd.active = false ∨ s.cd.rem = 0 →
    ∃ t : State, Sys2Proof.core.run n (s.withTicks n) = .next t ∧ t.cd = s.cd ∧ t.out = s.out ∧ t.mode = s.mode

/-- R111 ("Faults: none"), R120: any number of ticks is a safe run. -/
def Obligations.TicksRunSafely : Prop :=
  ∀ (n : Nat) (s : State), s.NoFault → (s.withTicks n).SafeRun n

/-! The whole machine. -/

/-- The invariant holds after reset. -/
def Obligations.InvariantAtReset : Prop := State.reset.Inv

/-- Every step keeps the invariant: the clock legal (R24), `cd.rem` within its width (R25), the flags never both set, the
plate energised exactly while the countdown is active, the heating element only then (R35), the recorded fault one that
the recorded word raises (R115). -/
def Obligations.StepKeepsInvariant : Prop :=
  ∀ s t : State, s.Inv → step s = .next t → t.Inv

/-- Every step completes, but for a write narrower than 32 bits to `cmd`, which is refused (R48, R76). -/
def Obligations.StepCompletes : Prop :=
  ∀ s : State,
    ((∀ rest, s.arrivals ≠ .narrowWrite :: rest) → ∃ t, step s = .next t) ∧
      ∀ rest, s.arrivals = .narrowWrite :: rest → step s = .refused .narrowWriteOutsideSpec

/-- A step of a block that is not stopped runs its next word, in the state less that word: the command the word decodes
to, or, where it decodes to none, ILLEGAL_COMMAND with the word recorded, nothing else written and no response (R70,
R116, R117). The next word may come from `cmd`, from `tick`, from a command during which a tick arrives, from a bus write
or from a pending tick. That the inputs are a list of arrivals is the model's choice (log 3). -/
def Obligations.StepRunsDecodedCommand : Prop :=
  ∀ (s u : State) (ch : Channel) (w : Word), s.NoFault → s.NextWord ch w u →
    step s = u.runWord ch w ∧
      (∀ i, decode ch w = .ok i → step s = exec i u) ∧
      ∀ e, decode ch w = .error e →
        step s = .next { u with fault := { kind := .illegalCommand, info := w }, rsp := none }

/-- A well-formed command's word, placed as the opcode table numbers it, is what the next step runs. -/
def Obligations.PlacedWordRunsNext : Prop :=
  ∀ (s : State) (i : Instr), s.NoFault → i.wellFormed = true →
    decodeTableWord 32 (encode i).toNat = some i ∧
      step (s.withFetchWord 32 (encode i).toNat) = exec i { s with pendingTick := none }

/-- R120: a tick that arrives during a command is pending after it; it is the very next transaction, before any further
command, whatever has arrived since but a reset; then it is pending no more, and nothing that has arrived was taken with
it. A reset abandons it (R134). -/
def Obligations.PendingTickTakenNext : Prop :=
  (∀ (s t : State) (c : Word) (rest : List Arrival), s.NoFault → s.pendingTick = none →
      s.arrivals = .tickDuringCmd c (encode .tick) :: rest → step s = .next t →
      t.pendingTick = some (encode .tick) ∧ t.arrivals = rest) ∧
    (∀ s : State, s.NoFault → s.pendingTick = some (encode .tick) → (∀ ok r, s.arrivals ≠ .reset ok :: r) →
      (∀ r, s.arrivals ≠ .narrowWrite :: r) →
      ∃ t, step s = .next t ∧ t.clk = s.clk.advance ∧ t.pendingTick = none ∧ t.arrivals = s.arrivals) ∧
    ∀ (s t : State) (ok : Bool) (rest : List Arrival), s.arrivals = .reset ok :: rest → step s = .next t →
      t.pendingTick = none

/-- R121: a tick and a command that arrive at the same instant are taken one after the other, in one of the two orders. -/
def Obligations.SimultaneousEitherOrder : Prop :=
  ∀ (s : State) (c t : Word) (rest : List Arrival), s.NoFault → s.pendingTick = none →
    s.arrivals = .simultaneous c t :: rest →
    step s = step { s with arrivals := .tick t :: .cmd c :: rest, simulCount := s.simulCount + 1 } ∨
      step s = step { s with arrivals := .cmd c :: .tick t :: rest, simulCount := s.simulCount + 1 }

/-- R51: a GETTIME that arrives together with a TICK returns the clock as it was before the tick or as it is after, whole,
and the tick is not lost. -/
def Obligations.NoTornRead : Prop :=
  ∀ (s : State) (rest : List Arrival), s.NoFault → s.pendingTick = none →
    s.arrivals = .simultaneous (encode .gettime) (encode .tick) :: rest →
    ∃ t u : State, Sys2Proof.core.run 1 s = .next t ∧ Sys2Proof.core.run 2 s = .next u ∧
      u.clk = s.clk.advance ∧ u.arrivals = rest ∧
      ((∃ v, t.rsp = some v ∧ u.rsp = none ∧ v.extractLsb' 16 5 = s.clk.h ∧ v.extractLsb' 8 6 = s.clk.m ∧
          v.extractLsb' 0 6 = s.clk.s) ∨
        (∃ v, t.rsp = none ∧ u.rsp = some v ∧ v.extractLsb' 16 5 = s.clk.advance.h ∧
          v.extractLsb' 8 6 = s.clk.advance.m ∧ v.extractLsb' 0 6 = s.clk.advance.s))

/-- R52: issuing any command twice in a row, with no tick between, leaves what issuing it once leaves. -/
def Obligations.CommandsIdempotent : Prop :=
  ∀ (i : Instr) (s t : State), i ≠ .tick → exec i s = .next t → exec i t = .next t

/-- R23, R25, R28, R29, R32, R52, R85, R115: which commands write which register. A register that a command changes is one
of those the rules name as its writers'; the fault register changes only by a SETTIME or SETREM out of range (R118), or by
a START or DUTY of mode code 3, which no word decodes to (log 12); no command touches the inputs. -/
def Obligations.OnlyWritersChangeRegisters : Prop :=
  ∀ (i : Instr) (s t : State), exec i s = .next t →
    s.SameInputs t ∧
    (t.clk.s ≠ s.clk.s → i = .tick) ∧
    (t.clk ≠ s.clk → i = .tick ∨ ∃ hh mm, i = .settime hh mm) ∧
    (t.cd.rem ≠ s.cd.rem → i = .tick ∨ ∃ sss, i = .setrem sss) ∧
    (t.cd.active ≠ s.cd.active → i = .tick ∨ i = .stop ∨ ∃ md, i = .start md) ∧
    (t.cd.complete ≠ s.cd.complete → i = .tick ∨ i = .ack ∨ ∃ md, i = .start md) ∧
    (t.mode ≠ s.mode → ∃ md, i = .start md) ∧
    (t.out.heat ≠ s.out.heat → i = .tick ∨ i = .stop) ∧
    (t.out.plate ≠ s.out.plate → i = .tick ∨ i = .stop ∨ ∃ md, i = .start md) ∧
    (t.fault ≠ s.fault →
      (∃ hh mm, i = .settime hh mm ∧ (23 < hh.toNat ∨ 59 < mm.toNat)) ∨
        (∃ sss, i = .setrem sss ∧ 2 ^ Config.wRem ≤ sss.toNat) ∨ i = .start 3 ∨ ∃ rrr, i = .duty 3 rrr) ∧
    (t.rsp ≠ none →
      i = .gettime ∨ i = .getrem ∨ i = .peek ∨ i = .status ∨ ∃ md rrr, i = .duty md rrr)

/-- R26, R98: `cd.complete` becomes set only by a step that takes a TICK of a block that is not stopped, at the exact
transition of `cd.rem` from 1 to 0 of an active countdown; that step clears `cd.active` and turns both outputs off. -/
def Obligations.CompleteSetOnlyAtExpiry : Prop :=
  ∀ s t : State, step s = .next t → s.cd.complete = false → t.cd.complete = true →
    s.NoFault ∧ (∃ u, s.fetch = (.word .tick (encode .tick), u)) ∧ s.cd.active = true ∧ s.cd.rem = 1 ∧
      t.cd.rem = 0 ∧ t.cd.active = false ∧ t.out = { heat := false, plate := false }

/-- R106, R35, R144: the heating element is switched on only by a step that takes a TICK of a block that is not stopped,
while a countdown is active and does not expire, and only if the scheduler decides so for the new remaining time. -/
def Obligations.HeatTurnsOnOnlyInTick : Prop :=
  ∀ s t : State, step s = .next t → s.out.heat = false → t.out.heat = true →
    s.NoFault ∧ (∃ u, s.fetch = (.word .tick (encode .tick), u)) ∧ s.cd.active = true ∧ t.cd.active = true ∧
      t.cd.rem.toNat + 1 = s.cd.rem.toNat ∧ 1 ≤ t.cd.rem.toNat ∧ decideHeating s.mode t.cd.rem.toNat = true

/-- R84, R112: the countdown, the mode, the outputs and the fault register after any command do not depend on the clock,
and the clock after it does not depend on the countdown, the mode or the outputs. -/
def Obligations.ClockAndCountdownIndependent : Prop :=
  ∀ (i : Instr) (s t : State), exec i s = .next t →
    (∀ c : Clock, ∃ u, exec i { s with clk := c } = .next u ∧ u.cd = t.cd ∧ u.mode = t.mode ∧ u.out = t.out ∧
      u.fault = t.fault) ∧
    ∀ (d : Countdown) (m : PowerMode) (o : Outputs),
      ∃ u, exec i { s with cd := d, mode := m, out := o } = .next u ∧ u.clk = t.clk ∧ u.fault = t.fault

/-- R95: the transition table of the countdown, in every state that meets the invariant. -/
def Obligations.TransitionTable : Prop :=
  ∀ s : State, s.Inv →
    (∀ m : PowerMode, ∃ t, exec (.start m.code) s = .next t ∧ fsmState t.cd = .running ∧ t.mode = m ∧
      t.out.plate = true) ∧
    (∃ t, exec .stop s = .next t ∧ t.cd.rem = s.cd.rem ∧ t.out.forcedOff = true ∧
      (fsmState s.cd ≠ .running → t.out = s.out) ∧
      fsmState t.cd = if fsmState s.cd = .expired then .expired else .idle) ∧
    (∃ t, exec .ack s = .next t ∧ t.out = s.out ∧
      fsmState t.cd = (if fsmState s.cd = .running then .running else .idle) ∧
      (fsmState s.cd ≠ .expired → t.cd = s.cd)) ∧
    (∀ sss : BitVec 24, sss.toNat < 2 ^ Config.wRem →
      ∃ t, exec (.setrem sss) s = .next t ∧ fsmState t.cd = fsmState s.cd ∧ t.cd.rem = sss) ∧
    (∃ t, exec .tick s = .next t ∧
      fsmState t.cd =
        (if fsmState s.cd = .running ∧ s.cd.rem = 1 then .expired else fsmState s.cd) ∧
      (fsmState s.cd ≠ .running ∨ s.cd.rem = 0 → t.cd = s.cd ∧ t.out = s.out)) ∧
    (∀ (i : Instr) (m : PowerMode) (rrr : BitVec 24),
      i ∈ [Instr.gettime, .getrem, .peek, .status, .duty m.code rrr] →
      ∃ t, exec i s = .next t ∧ s.SameRegisters t) ∧
    ∀ (hh : BitVec 5) (mm : BitVec 6), hh.toNat ≤ 23 → mm.toNat ≤ 59 →
      ∃ t, exec (.settime hh mm) s = .next t ∧ t.cd = s.cd ∧ t.mode = s.mode ∧ t.out = s.out
end

