-- ==== Sys2Proof/Laws/Decode.lean ====
section
/-! SUPPORT. The small lemmas of the decoder and the encoder. -/

namespace Sys2Proof

/-- Every opcode's own bits name it. -/
@[simp] theorem opcodeOfBits_bits (op : Opcode) : opcodeOfBits op.bits = some op := by cases op <;> rfl

/-- The bits that name an opcode are its own. -/
theorem bits_of_opcodeOfBits {b : BitVec 4} {op : Opcode} (h : opcodeOfBits b = some op) : b = op.bits := by
  unfold opcodeOfBits at h
  have := List.find?_some h
  exact (beq_iff_eq.mp this).symm

/-- The bits no row has are R71's reserved opcodes. -/
theorem opcodeOfBits_none_iff (b : BitVec 4) :
    opcodeOfBits b = none ↔ b = 0x0 ∨ b = 0xB ∨ b = 0xC ∨ b = 0xD ∨ b = 0xE := by
  revert b; decide

theorem opcode_mem_all (op : Opcode) : op ∈ Opcode.all := by cases op <;> decide

/-! The match and mask columns of R69. -/

theorem row_gettime : Opcode.gettime.pattern = 0x10000000#32 ∧ Opcode.gettime.mask = 0xFFFFFFFF#32 := by decide

theorem row_settime : Opcode.settime.pattern = 0x20000000#32 ∧ Opcode.settime.mask = 0xFFE0C0FF#32 := by decide

theorem row_getrem : Opcode.getrem.pattern = 0x30000000#32 ∧ Opcode.getrem.mask = 0xFFFFFFFF#32 := by decide

theorem row_setrem : Opcode.setrem.pattern = 0x40000000#32 ∧ Opcode.setrem.mask = 0xFF000000#32 := by decide

theorem row_start : Opcode.start.pattern = 0x50000000#32 ∧ Opcode.start.mask = 0xFFFFFFFC#32 := by decide

theorem row_stop : Opcode.stop.pattern = 0x60000000#32 ∧ Opcode.stop.mask = 0xFFFFFFFF#32 := by decide

theorem row_ack : Opcode.ack.pattern = 0x70000000#32 ∧ Opcode.ack.mask = 0xFFFFFFFF#32 := by decide

theorem row_peek : Opcode.peek.pattern = 0x80000000#32 ∧ Opcode.peek.mask = 0xFFFFFFFF#32 := by decide

theorem row_duty : Opcode.duty.pattern = 0x90000000#32 ∧ Opcode.duty.mask = 0xFC000000#32 := by decide

theorem row_status : Opcode.status.pattern = 0xA0000000#32 ∧ Opcode.status.mask = 0xFFFFFFFF#32 := by decide

theorem row_tick : Opcode.tick.pattern = 0xF0000000#32 ∧ Opcode.tick.mask = 0xFFFFFFFF#32 := by decide

/-- `mode_of` gives a mode for exactly the codes that name one. -/
theorem modeOf_eq_none_iff (md : BitVec 2) : modeOf md = none ↔ md = 3 := by revert md; decide

@[simp] theorem modeOf_code (m : PowerMode) : modeOf m.code = some m := by cases m <;> rfl

theorem code_of_modeOf {md : BitVec 2} {m : PowerMode} (h : modeOf md = some m) : md = m.code := by
  revert md m; decide

theorem modeCodeNamed_iff (md : BitVec 2) : modeCodeNamed md = true ↔ md ≠ 3 := by revert md; decide

@[simp] theorem modeCodeNamed_code (m : PowerMode) : modeCodeNamed m.code = true := by cases m <;> rfl

/-- Decoding a word whose opcode is assigned, as R70 orders its checks. -/
theorem decode_of_opcode {ch : Channel} {w : Word} {op : Opcode} (h : opcodeOfBits (opcodeField w) = some op) :
    decode ch w =
      if w &&& op.mask ≠ op.pattern then .error .reservedBit
      else if op = .tick ∧ ch = .cmd then .error .tickOnCmd
      else if op ≠ .tick ∧ ch = .tick then .error .otherOnTick
      else assembleOperands op w := by
  simp only [decode, h]

/-- Decoding a word whose opcode is reserved (R71). -/
theorem decode_of_reserved {ch : Channel} {w : Word} (h : opcodeOfBits (opcodeField w) = none) :
    decode ch w = .error .reservedOpcode := by
  simp only [decode, h]

/-- What a decoded word passed: its row, its reserved bits, its channel, its mode code. -/
theorem decode_ok {ch : Channel} {w : Word} {i : Instr} (h : decode ch w = .ok i) :
    ∃ op, opcodeOfBits (opcodeField w) = some op ∧ w &&& op.mask = op.pattern ∧ (op = .tick ↔ ch = .tick) ∧
      assembleOperands op w = .ok i := by
  cases hop : opcodeOfBits (opcodeField w) with
  | none => rw [decode_of_reserved hop] at h; cases h
  | some op =>
    rw [decode_of_opcode hop] at h
    split at h
    · cases h
    · rename_i hm
      split at h
      · cases h
      · rename_i h1
        split at h
        · cases h
        · rename_i h2
          refine ⟨op, rfl, not_not.mp hm, ⟨fun ht => ?_, fun ht => ?_⟩, h⟩
          · cases ch
            · exact absurd ⟨ht, rfl⟩ h1
            · rfl
          · exact not_not.mp fun hn => h2 ⟨hn, ht⟩

/-- The command a row's word assembles to belongs to that row. -/
theorem opcode_of_assemble {op : Opcode} {w : Word} {i : Instr} (h : assembleOperands op w = .ok i) :
    i.opcode = op := by
  cases op <;> simp only [assembleOperands] at h <;>
    first
      | (cases h; rfl)
      | (split at h <;> cases h; rfl)

/-- TICK's channel is `tick`, every other command's is `cmd` (R75, R127). -/
theorem channel_eq_tick_iff (i : Instr) : i.channel = .tick ↔ i.opcode = .tick := by
  cases i <;> simp [Instr.channel, Instr.opcode]

end Sys2Proof
end

