-- ==== Sys2Proof/Laws/PerInstr.lean ====
section
/-! SUPPORT. Statements about every command as syntax, one lemma per constructor. -/

namespace Sys2Proof.Laws

/-- The word of a command selects the command's own row of the opcode map (R69). -/
def SelectsOwnRow.Statement (i : Instr) : Prop :=
  encode i &&& i.opcode.mask = i.opcode.pattern ∧ opcodeField (encode i) = i.opcode.bits

theorem or_and (x y z : Word) : (x ||| y) &&& z = x &&& z ||| y &&& z := by
  rw [BitVec.and_comm, BitVec.and_or_distrib_left, BitVec.and_comm z x, BitVec.and_comm z y]

/-- Where each field of a word lies outside the bits its row's mask keeps, the mask clears it. -/
theorem hours_masked (hh : BitVec 5) : hh.setWidth 32 <<< 16 &&& 0xFFE0C0FF#32 = 0#32 := by revert hh; decide

theorem minutes_masked (mm : BitVec 6) : mm.setWidth 32 <<< 8 &&& 0xFFE0C0FF#32 = 0#32 := by revert mm; decide

theorem modeQ_masked (md : BitVec 2) : md.setWidth 32 <<< 24 &&& (0xFC#8).setWidth 32 <<< 24 = 0#32 := by revert md; decide

/-- A number below `2^24` has no bit at 24 or above. -/
theorem seconds_masked (sss : BitVec 24) (k : BitVec 8) : sss.setWidth 32 &&& k.setWidth 32 <<< 24 = 0#32 := by
  ext j hj
  simp only [BitVec.getElem_and, BitVec.getElem_setWidth, BitVec.getElem_shiftLeft, BitVec.getElem_zero]
  by_cases h : j < 24
  · simp [h]
  · simp [BitVec.getLsbD_of_ge sss j (by omega)]

/-- The opcode field of a word whose other fields lie below bit 28. -/
theorem opcodeField_of_low (b : BitVec 4) (x : Word) (h : x.extractLsb' 28 4 = 0) :
    opcodeField (b.setWidth 32 <<< 28 ||| x) = b := by
  have hb : (b.setWidth 32 <<< 28).extractLsb' 28 4 = b := by revert b; decide
  rw [opcodeField, BitVec.extractLsb'_or, h, hb]
  exact BitVec.or_zero

theorem hours_low (hh : BitVec 5) : (hh.setWidth 32 <<< 16).extractLsb' 28 4 = 0#4 := by revert hh; decide

theorem minutes_low (mm : BitVec 6) : (mm.setWidth 32 <<< 8).extractLsb' 28 4 = 0#4 := by revert mm; decide

theorem modeQ_low (md : BitVec 2) : (md.setWidth 32 <<< 24).extractLsb' 28 4 = 0#4 := by revert md; decide

theorem seconds_low (sss : BitVec 24) : (sss.setWidth 32).extractLsb' 28 4 = 0#4 := by
  ext j hj
  simp [BitVec.getLsbD_of_ge sss (28 + j) (by omega)]

namespace SelectsOwnRow

theorem gettime : Statement .gettime := by unfold Statement; decide

theorem settime (hh : BitVec 5) (mm : BitVec 6) : Statement (.settime hh mm) := by
  constructor
  · have hm : Opcode.settime.mask = 0xFFE0C0FF#32 := by decide
    have hp : Opcode.settime.bits.setWidth 32 <<< 28 &&& 0xFFE0C0FF#32 = Opcode.settime.pattern := by decide
    simp only [encode, encodeT, Instr.opcode, hm, or_and, hours_masked, minutes_masked, hp, BitVec.or_zero]
  · simp only [encode, encodeT, Instr.opcode, BitVec.or_assoc]
    exact opcodeField_of_low _ _ (by rw [BitVec.extractLsb'_or, hours_low, minutes_low]; rfl)

theorem getrem : Statement .getrem := by unfold Statement; decide

theorem setrem (sss : BitVec 24) : Statement (.setrem sss) := by
  constructor
  · have hm : Opcode.setrem.mask = (0xFF#8).setWidth 32 <<< 24 := by decide
    have hp : Opcode.setrem.bits.setWidth 32 <<< 28 &&& (0xFF#8).setWidth 32 <<< 24 = Opcode.setrem.pattern := by
      decide
    simp only [encode, encodeR, Instr.opcode, hm, or_and, seconds_masked, hp, BitVec.or_zero]
  · simp only [encode, encodeR, Instr.opcode]
    exact opcodeField_of_low _ _ (seconds_low sss)

theorem start (md : BitVec 2) : Statement (.start md) := by unfold Statement; revert md; decide

theorem stop : Statement .stop := by unfold Statement; decide

theorem ack : Statement .ack := by unfold Statement; decide

theorem peek : Statement .peek := by unfold Statement; decide

theorem duty (md : BitVec 2) (rrr : BitVec 24) : Statement (.duty md rrr) := by
  constructor
  · have hm : Opcode.duty.mask = (0xFC#8).setWidth 32 <<< 24 := by decide
    have hp : Opcode.duty.bits.setWidth 32 <<< 28 &&& (0xFC#8).setWidth 32 <<< 24 = Opcode.duty.pattern := by decide
    simp only [encode, encodeQ, Instr.opcode, hm, or_and, modeQ_masked, seconds_masked, hp, BitVec.or_zero]
  · simp only [encode, encodeQ, Instr.opcode, BitVec.or_assoc]
    exact opcodeField_of_low _ _ (by rw [BitVec.extractLsb'_or, modeQ_low, seconds_low]; rfl)

theorem status : Statement .status := by unfold Statement; decide

theorem tick : Statement .tick := by unfold Statement; decide

end SelectsOwnRow

/-- The same of every command. -/
theorem selectsOwnRow (i : Instr) : SelectsOwnRow.Statement i := by
  cases i
  · exact SelectsOwnRow.gettime
  · exact SelectsOwnRow.settime _ _
  · exact SelectsOwnRow.getrem
  · exact SelectsOwnRow.setrem _
  · exact SelectsOwnRow.start _
  · exact SelectsOwnRow.stop
  · exact SelectsOwnRow.ack
  · exact SelectsOwnRow.peek
  · exact SelectsOwnRow.duty _ _
  · exact SelectsOwnRow.status
  · exact SelectsOwnRow.tick

/-- A command's word is delivered on the command's own channel. -/
theorem deliveryChannel_encode (i : Instr) : deliveryChannel (encode i) = i.channel := by
  rw [deliveryChannel, (selectsOwnRow i).2]
  cases i <;> rfl

/-- A word numbered as the opcode table numbers it is the word itself. -/
theorem tableWord_toNat (w : Word) : tableWord 32 w.toNat = w := by
  rw [tableWord, Nat.mod_eq_of_lt w.isLt, BitVec.ofNat_toNat, BitVec.setWidth_eq]

end Sys2Proof.Laws
end

