-- ==== Sys2Proof/Laws/Fields.lean ====
section
/-! SUPPORT. The fields of the words the encoder writes, and a word as the sum of its fields. -/

namespace Sys2Proof

/-! What the decoder's field functions read from an encoded command. -/

theorem hoursField_encode (hh : BitVec 5) (mm : BitVec 6) : hoursField (encode (.settime hh mm)) = hh := by
  have h1 : (Opcode.settime.bits.setWidth 32 <<< 28).extractLsb' 16 5 = 0#5 := by decide
  have h2 : (hh.setWidth 32 <<< 16).extractLsb' 16 5 = hh := by revert hh; decide
  have h3 : (mm.setWidth 32 <<< 8).extractLsb' 16 5 = 0#5 := by revert mm; decide
  simp only [hoursField, encode, encodeT, BitVec.extractLsb'_or, h1, h2, h3, BitVec.or_zero, BitVec.zero_or]

theorem minutesField_encode (hh : BitVec 5) (mm : BitVec 6) : minutesField (encode (.settime hh mm)) = mm := by
  have h1 : (Opcode.settime.bits.setWidth 32 <<< 28).extractLsb' 8 6 = 0#6 := by decide
  have h2 : (hh.setWidth 32 <<< 16).extractLsb' 8 6 = 0#6 := by revert hh; decide
  have h3 : (mm.setWidth 32 <<< 8).extractLsb' 8 6 = mm := by revert mm; decide
  simp only [minutesField, encode, encodeT, BitVec.extractLsb'_or, h1, h2, h3, BitVec.or_zero, BitVec.zero_or]

theorem seconds_low24 (sss : BitVec 24) : (sss.setWidth 32).extractLsb' 0 24 = sss := by
  apply BitVec.eq_of_toNat_eq
  have := sss.isLt
  simp [BitVec.extractLsb'_toNat]
  omega

theorem secondsField_encode_setrem (sss : BitVec 24) : secondsField (encode (.setrem sss)) = sss := by
  have h1 : (Opcode.setrem.bits.setWidth 32 <<< 28).extractLsb' 0 24 = 0#24 := by decide
  simp only [secondsField, encode, encodeR, BitVec.extractLsb'_or, h1, seconds_low24, BitVec.zero_or]

theorem secondsField_encode_duty (md : BitVec 2) (rrr : BitVec 24) : secondsField (encode (.duty md rrr)) = rrr := by
  have h1 : (Opcode.duty.bits.setWidth 32 <<< 28).extractLsb' 0 24 = 0#24 := by decide
  have h2 : (md.setWidth 32 <<< 24).extractLsb' 0 24 = 0#24 := by revert md; decide
  simp only [secondsField, encode, encodeQ, BitVec.extractLsb'_or, h1, h2, seconds_low24, BitVec.zero_or]

theorem modeFieldQ_encode (md : BitVec 2) (rrr : BitVec 24) : modeFieldQ (encode (.duty md rrr)) = md := by
  have h1 : (Opcode.duty.bits.setWidth 32 <<< 28).extractLsb' 24 2 = 0#2 := by decide
  have h2 : (md.setWidth 32 <<< 24).extractLsb' 24 2 = md := by revert md; decide
  have h3 : (rrr.setWidth 32).extractLsb' 24 2 = 0#2 := by
    ext j hj
    simp
  simp only [modeFieldQ, encode, encodeQ, BitVec.extractLsb'_or, h1, h2, h3, BitVec.zero_or, BitVec.or_zero]

theorem modeFieldM_encode (md : BitVec 2) : modeFieldM (encode (.start md)) = md := by revert md; decide

/-! Two words are equal when their fields are. -/

section
variable {a b : Word}

theorem eq_of_fieldsT (h1 : a.extractLsb' 21 11 = b.extractLsb' 21 11) (h2 : a.extractLsb' 16 5 = b.extractLsb' 16 5)
    (h3 : a.extractLsb' 14 2 = b.extractLsb' 14 2) (h4 : a.extractLsb' 8 6 = b.extractLsb' 8 6)
    (h5 : a.extractLsb' 0 8 = b.extractLsb' 0 8) : a = b := by
  apply BitVec.eq_of_toNat_eq
  have h1 := congrArg BitVec.toNat h1
  have h2 := congrArg BitVec.toNat h2
  have h3 := congrArg BitVec.toNat h3
  have h4 := congrArg BitVec.toNat h4
  have h5 := congrArg BitVec.toNat h5
  simp only [BitVec.extractLsb'_toNat, Nat.shiftRight_eq_div_pow] at *
  have := a.isLt
  have := b.isLt
  omega

theorem eq_of_fieldsR (h1 : a.extractLsb' 24 8 = b.extractLsb' 24 8) (h2 : a.extractLsb' 0 24 = b.extractLsb' 0 24) :
    a = b := by
  apply BitVec.eq_of_toNat_eq
  have h1 := congrArg BitVec.toNat h1
  have h2 := congrArg BitVec.toNat h2
  simp only [BitVec.extractLsb'_toNat, Nat.shiftRight_eq_div_pow] at *
  have := a.isLt
  have := b.isLt
  omega

theorem eq_of_fieldsM (h1 : a.extractLsb' 2 30 = b.extractLsb' 2 30) (h2 : a.extractLsb' 0 2 = b.extractLsb' 0 2) :
    a = b := by
  apply BitVec.eq_of_toNat_eq
  have h1 := congrArg BitVec.toNat h1
  have h2 := congrArg BitVec.toNat h2
  simp only [BitVec.extractLsb'_toNat, Nat.shiftRight_eq_div_pow] at *
  have := a.isLt
  have := b.isLt
  omega

theorem eq_of_fieldsQ (h1 : a.extractLsb' 26 6 = b.extractLsb' 26 6) (h2 : a.extractLsb' 24 2 = b.extractLsb' 24 2)
    (h3 : a.extractLsb' 0 24 = b.extractLsb' 0 24) : a = b := by
  apply BitVec.eq_of_toNat_eq
  have h1 := congrArg BitVec.toNat h1
  have h2 := congrArg BitVec.toNat h2
  have h3 := congrArg BitVec.toNat h3
  simp only [BitVec.extractLsb'_toNat, Nat.shiftRight_eq_div_pow] at *
  have := a.isLt
  have := b.isLt
  omega

end

/-- A field that a mask keeps whole is the pattern's. -/
theorem field_of_masked {w m p : Word} {k n : Nat} (hm : w &&& m = p) (hf : m.extractLsb' k n = BitVec.allOnes n) :
    w.extractLsb' k n = p.extractLsb' k n := by
  rw [← hm, BitVec.extractLsb'_and, hf, BitVec.and_allOnes]

theorem eq_of_opcode_and_low {a b : Word} (h1 : a.extractLsb' 28 4 = b.extractLsb' 28 4)
    (h2 : a.extractLsb' 0 28 = b.extractLsb' 0 28) : a = b := by
  apply BitVec.eq_of_toNat_eq
  have h1 := congrArg BitVec.toNat h1
  have h2 := congrArg BitVec.toNat h2
  simp only [BitVec.extractLsb'_toNat, Nat.shiftRight_eq_div_pow] at *
  have := a.isLt
  have := b.isLt
  omega

/-- A word with a row's opcode fails to match the row exactly when a reserved-zero bit is set (R72). -/
theorem mismatch_iff_reserved {w r : Word} {op : Opcode} (h : w.extractLsb' 28 4 = op.bits)
    (hr : op.mask = 0xF0000000#32 ||| r) (h0 : r &&& 0xF0000000#32 = 0) :
    w &&& op.mask ≠ op.pattern ↔ w &&& r ≠ 0#32 := by
  have hf : w &&& 0xF0000000#32 = op.pattern := by
    apply eq_of_opcode_and_low
    · rw [BitVec.extractLsb'_and, h]
      cases op <;> decide
    · rw [BitVec.extractLsb'_and, show (0xF0000000#32).extractLsb' 0 28 = 0#28 by decide, BitVec.and_zero]
      cases op <;> decide
  rw [hr, BitVec.and_or_distrib_left, hf]
  refine not_congr ⟨fun e => ?_, fun e => by rw [e, BitVec.or_zero]⟩
  have p0 : op.pattern &&& r = 0#32 := by
    rw [← hf, BitVec.and_assoc, BitVec.and_comm _ r, h0]
    exact BitVec.and_zero
  have e' : (op.pattern ||| w &&& r) &&& r = op.pattern &&& r := by rw [e]
  rwa [Laws.or_and, p0, BitVec.and_assoc, BitVec.and_self, BitVec.zero_or] at e'

/-- A word of an assigned opcode that does not match its row has a reserved bit set (R72). -/
theorem decode_reservedBit {ch : Channel} {w : Word} {op : Opcode} (h : opcodeField w = op.bits)
    (hm : w &&& op.mask ≠ op.pattern) : decode ch w = .error .reservedBit := by
  rw [decode_of_opcode (op := op) (by rw [h, opcodeOfBits_bits]), if_pos hm]

end Sys2Proof
end

