-- ==== Sys2Proof/Laws/State.lean ====
section
/-! SUPPORT. One lemma per field per named update of the state, so that no later proof unfolds one. -/

namespace Sys2Proof.Machine

section
variable (s : State)

/-! `respond`. -/

@[simp] theorem respond_clk (v : Word) : (s.respond v).clk = s.clk := rfl
@[simp] theorem respond_cd (v : Word) : (s.respond v).cd = s.cd := rfl
@[simp] theorem respond_mode (v : Word) : (s.respond v).mode = s.mode := rfl
@[simp] theorem respond_out (v : Word) : (s.respond v).out = s.out := rfl
@[simp] theorem respond_fault (v : Word) : (s.respond v).fault = s.fault := rfl
@[simp] theorem respond_rsp (v : Word) : (s.respond v).rsp = some v := rfl
@[simp] theorem respond_pendingTick (v : Word) : (s.respond v).pendingTick = s.pendingTick := rfl
@[simp] theorem respond_arrivals (v : Word) : (s.respond v).arrivals = s.arrivals := rfl
@[simp] theorem respond_simulCount (v : Word) : (s.respond v).simulCount = s.simulCount := rfl

/-! `silent`. -/

@[simp] theorem silent_clk : (s.silent).clk = s.clk := rfl
@[simp] theorem silent_cd : (s.silent).cd = s.cd := rfl
@[simp] theorem silent_mode : (s.silent).mode = s.mode := rfl
@[simp] theorem silent_out : (s.silent).out = s.out := rfl
@[simp] theorem silent_fault : (s.silent).fault = s.fault := rfl
@[simp] theorem silent_rsp : (s.silent).rsp = none := rfl
@[simp] theorem silent_pendingTick : (s.silent).pendingTick = s.pendingTick := rfl
@[simp] theorem silent_arrivals : (s.silent).arrivals = s.arrivals := rfl
@[simp] theorem silent_simulCount : (s.silent).simulCount = s.simulCount := rfl

/-! `raiseFault`. -/

@[simp] theorem raiseFault_clk (k : FaultKind) (info : Word) : (s.raiseFault k info).clk = s.clk := rfl
@[simp] theorem raiseFault_cd (k : FaultKind) (info : Word) : (s.raiseFault k info).cd = s.cd := rfl
@[simp] theorem raiseFault_mode (k : FaultKind) (info : Word) : (s.raiseFault k info).mode = s.mode := rfl
@[simp] theorem raiseFault_out (k : FaultKind) (info : Word) : (s.raiseFault k info).out = s.out := rfl
@[simp] theorem raiseFault_fault (k : FaultKind) (info : Word) : (s.raiseFault k info).fault = { kind := k, info := info } := rfl
@[simp] theorem raiseFault_rsp (k : FaultKind) (info : Word) : (s.raiseFault k info).rsp = none := rfl
@[simp] theorem raiseFault_pendingTick (k : FaultKind) (info : Word) : (s.raiseFault k info).pendingTick = s.pendingTick := rfl
@[simp] theorem raiseFault_arrivals (k : FaultKind) (info : Word) : (s.raiseFault k info).arrivals = s.arrivals := rfl
@[simp] theorem raiseFault_simulCount (k : FaultKind) (info : Word) : (s.raiseFault k info).simulCount = s.simulCount := rfl

/-! `illegalCommand`. -/

@[simp] theorem illegalCommand_clk (w : Word) : (s.illegalCommand w).clk = s.clk := rfl
@[simp] theorem illegalCommand_cd (w : Word) : (s.illegalCommand w).cd = s.cd := rfl
@[simp] theorem illegalCommand_mode (w : Word) : (s.illegalCommand w).mode = s.mode := rfl
@[simp] theorem illegalCommand_out (w : Word) : (s.illegalCommand w).out = s.out := rfl
@[simp] theorem illegalCommand_fault (w : Word) : (s.illegalCommand w).fault = { kind := .illegalCommand, info := w } := rfl
@[simp] theorem illegalCommand_rsp (w : Word) : (s.illegalCommand w).rsp = none := rfl
@[simp] theorem illegalCommand_pendingTick (w : Word) : (s.illegalCommand w).pendingTick = s.pendingTick := rfl
@[simp] theorem illegalCommand_arrivals (w : Word) : (s.illegalCommand w).arrivals = s.arrivals := rfl
@[simp] theorem illegalCommand_simulCount (w : Word) : (s.illegalCommand w).simulCount = s.simulCount := rfl

/-! `forceOff`. -/

@[simp] theorem forceOff_clk : (s.forceOff).clk = s.clk := rfl
@[simp] theorem forceOff_cd : (s.forceOff).cd = s.cd := rfl
@[simp] theorem forceOff_mode : (s.forceOff).mode = s.mode := rfl
@[simp] theorem forceOff_out : (s.forceOff).out = { heat := false, plate := false } := rfl
@[simp] theorem forceOff_fault : (s.forceOff).fault = s.fault := rfl
@[simp] theorem forceOff_rsp : (s.forceOff).rsp = s.rsp := rfl
@[simp] theorem forceOff_pendingTick : (s.forceOff).pendingTick = s.pendingTick := rfl
@[simp] theorem forceOff_arrivals : (s.forceOff).arrivals = s.arrivals := rfl
@[simp] theorem forceOff_simulCount : (s.forceOff).simulCount = s.simulCount := rfl

/-! `applyHeatingDecision`. -/

@[simp] theorem applyHeatingDecision_clk (b : Bool) : (s.applyHeatingDecision b).clk = s.clk := rfl
@[simp] theorem applyHeatingDecision_cd (b : Bool) : (s.applyHeatingDecision b).cd = s.cd := rfl
@[simp] theorem applyHeatingDecision_mode (b : Bool) : (s.applyHeatingDecision b).mode = s.mode := rfl
@[simp] theorem applyHeatingDecision_out (b : Bool) : (s.applyHeatingDecision b).out = { s.out with heat := b } := rfl
@[simp] theorem applyHeatingDecision_fault (b : Bool) : (s.applyHeatingDecision b).fault = s.fault := rfl
@[simp] theorem applyHeatingDecision_rsp (b : Bool) : (s.applyHeatingDecision b).rsp = s.rsp := rfl
@[simp] theorem applyHeatingDecision_pendingTick (b : Bool) : (s.applyHeatingDecision b).pendingTick = s.pendingTick := rfl
@[simp] theorem applyHeatingDecision_arrivals (b : Bool) : (s.applyHeatingDecision b).arrivals = s.arrivals := rfl
@[simp] theorem applyHeatingDecision_simulCount (b : Bool) : (s.applyHeatingDecision b).simulCount = s.simulCount := rfl

/-! `actuatorStart`. -/

@[simp] theorem actuatorStart_clk (m : PowerMode) : (s.actuatorStart m).clk = s.clk := rfl
@[simp] theorem actuatorStart_cd (m : PowerMode) : (s.actuatorStart m).cd = s.cd := rfl
@[simp] theorem actuatorStart_mode (m : PowerMode) : (s.actuatorStart m).mode = m := rfl
@[simp] theorem actuatorStart_out (m : PowerMode) : (s.actuatorStart m).out = { s.out with plate := true } := rfl
@[simp] theorem actuatorStart_fault (m : PowerMode) : (s.actuatorStart m).fault = s.fault := rfl
@[simp] theorem actuatorStart_rsp (m : PowerMode) : (s.actuatorStart m).rsp = s.rsp := rfl
@[simp] theorem actuatorStart_pendingTick (m : PowerMode) : (s.actuatorStart m).pendingTick = s.pendingTick := rfl
@[simp] theorem actuatorStart_arrivals (m : PowerMode) : (s.actuatorStart m).arrivals = s.arrivals := rfl
@[simp] theorem actuatorStart_simulCount (m : PowerMode) : (s.actuatorStart m).simulCount = s.simulCount := rfl

/-! `clockAdvance`. -/

@[simp] theorem clockAdvance_clk : (s.clockAdvance).clk = s.clk.advance := rfl
@[simp] theorem clockAdvance_cd : (s.clockAdvance).cd = s.cd := rfl
@[simp] theorem clockAdvance_mode : (s.clockAdvance).mode = s.mode := rfl
@[simp] theorem clockAdvance_out : (s.clockAdvance).out = s.out := rfl
@[simp] theorem clockAdvance_fault : (s.clockAdvance).fault = s.fault := rfl
@[simp] theorem clockAdvance_rsp : (s.clockAdvance).rsp = s.rsp := rfl
@[simp] theorem clockAdvance_pendingTick : (s.clockAdvance).pendingTick = s.pendingTick := rfl
@[simp] theorem clockAdvance_arrivals : (s.clockAdvance).arrivals = s.arrivals := rfl
@[simp] theorem clockAdvance_simulCount : (s.clockAdvance).simulCount = s.simulCount := rfl

/-! `resetBlock`. -/

@[simp] theorem resetBlock_clk (ok : Bool) : (s.resetBlock ok).clk = { h := 0, m := 1, s := 0 } := rfl
@[simp] theorem resetBlock_cd (ok : Bool) : (s.resetBlock ok).cd = { rem := 0, active := false, complete := false } := rfl
@[simp] theorem resetBlock_mode (ok : Bool) : (s.resetBlock ok).mode = .high := rfl
@[simp] theorem resetBlock_out (ok : Bool) : (s.resetBlock ok).out = { heat := false, plate := false } := rfl
@[simp] theorem resetBlock_fault (ok : Bool) : (s.resetBlock ok).fault = { kind := if ok then .none else .startupMisconfig, info := 0 } := rfl
@[simp] theorem resetBlock_rsp (ok : Bool) : (s.resetBlock ok).rsp = none := rfl
@[simp] theorem resetBlock_pendingTick (ok : Bool) : (s.resetBlock ok).pendingTick = none := rfl
@[simp] theorem resetBlock_arrivals (ok : Bool) : (s.resetBlock ok).arrivals = s.arrivals := rfl
@[simp] theorem resetBlock_simulCount (ok : Bool) : (s.resetBlock ok).simulCount = s.simulCount := rfl

end

section
variable (c : Countdown)

@[simp] theorem started_rem : c.started.rem = c.rem := rfl
@[simp] theorem started_active : c.started.active = true := rfl
@[simp] theorem started_complete : c.started.complete = false := rfl

@[simp] theorem halted_rem : c.halted.rem = c.rem := rfl
@[simp] theorem halted_active : c.halted.active = false := rfl
@[simp] theorem halted_complete : c.halted.complete = c.complete := rfl

@[simp] theorem acknowledged_rem : c.acknowledged.rem = c.rem := rfl
@[simp] theorem acknowledged_active : c.acknowledged.active = c.active := rfl
@[simp] theorem acknowledged_complete : c.acknowledged.complete = false := rfl

@[simp] theorem expired_rem : c.expired.rem = c.rem := rfl
@[simp] theorem expired_active : c.expired.active = false := rfl
@[simp] theorem expired_complete : c.expired.complete = true := rfl

end

end Sys2Proof.Machine
end

