-- ==== Sys2Proof/Laws/Ops.lean ====
section
/-! SUPPORT. For each shared operation, what it can do, said once. -/

namespace Sys2Proof.Machine

/-! Operands. -/

theorem timeInRange_iff (hh : BitVec 5) (mm : BitVec 6) :
    timeInRange hh mm = true ↔ hh.toNat ≤ 23 ∧ mm.toNat ≤ 59 := by
  simp [timeInRange, BitVec.le_def]

theorem secsFit_iff (width : Nat) (secs : BitVec 24) : secsFit width secs = true ↔ secs.toNat < 2 ^ width := by
  have := Nat.two_pow_pos width
  simp only [secsFit, Bool.or_eq_true, beq_iff_eq, decide_eq_true_eq, or_iff_right_iff_imp]
  rintro rfl
  simp

@[simp] theorem boolWord_true : boolWord true = 1 := rfl

@[simp] theorem boolWord_false : boolWord false = 0 := rfl

theorem wRem_pos : 1 ≤ Config.wRem := Nat.le_add_left 1 _

theorem wRem_le : Config.wRem ≤ 24 := Config.remWidthIndex.isLt

/-! The internal operations. -/

/-- The four ways the clock advances (R81). -/
theorem Clock.advance_cases (c : Clock) :
    (c.s < 59 ∧ c.advance = { c with s := c.s + 1 }) ∨
      (¬c.s < 59 ∧ c.m < 59 ∧ c.advance = { c with m := c.m + 1, s := 0 }) ∨
      (¬c.s < 59 ∧ ¬c.m < 59 ∧ c.h < 23 ∧ c.advance = { h := c.h + 1, m := 0, s := 0 }) ∨
      (¬c.s < 59 ∧ ¬c.m < 59 ∧ ¬c.h < 23 ∧ c.advance = { h := 0, m := 0, s := 0 }) := by
  unfold Clock.advance
  split
  · exact .inl ⟨‹_›, rfl⟩
  · split
    · exact .inr (.inl ⟨‹_›, ‹_›, rfl⟩)
    · split
      · exact .inr (.inr (.inl ⟨‹_›, ‹_›, ‹_›, rfl⟩))
      · exact .inr (.inr (.inr ⟨‹_›, ‹_›, ‹_›, rfl⟩))

/-- Everything a countdown tick can do (R94): nothing, the expiry, or a counted second. -/
theorem countdownTick_cases (s : State) :
    ((s.cd.active = false ∨ s.cd.rem = 0) ∧ s.countdownTick = s) ∨
      (s.cd.active = true ∧ s.cd.rem = 1 ∧
        s.countdownTick =
          { s with
            cd := { rem := 0, active := false, complete := true }, out := { heat := false, plate := false } }) ∨
      (s.cd.active = true ∧ 2 ≤ s.cd.rem.toNat ∧
        s.countdownTick =
          { s with
            cd := { s.cd with rem := s.cd.rem - 1 }
            out := { s.out with heat := decideHeating s.mode (s.cd.rem - 1).toNat } }) := by
  unfold State.countdownTick
  by_cases ha : s.cd.active = true
  · by_cases h0 : s.cd.rem = 0
    · left; simp [h0]
    · right
      by_cases h1 : s.cd.rem = 1
      · left
        simp [ha, h1, Countdown.expired, State.forceOff]
      · right
        have h2 : 2 ≤ s.cd.rem.toNat := by
          have : s.cd.rem.toNat ≠ 0 := fun h => h0 (BitVec.eq_of_toNat_eq h)
          have : s.cd.rem.toNat ≠ 1 := fun h => h1 (BitVec.eq_of_toNat_eq h)
          omega
        have h3 : s.cd.rem - 1 ≠ 0 := fun h => h1 (by bv_omega)
        refine ⟨ha, h2, ?_⟩
        simp only [ha, Bool.not_true, Bool.false_eq_true, if_false, h0, h3]
        rfl
  · left
    have : s.cd.active = false := by simpa using ha
    simp [this]

/-- Everything a TICK can do (R111). -/
theorem tick_cases (s : State) :
    ((s.cd.active = false ∨ s.cd.rem = 0) ∧
        s.clockAdvance.countdownTick.silent = { s with clk := s.clk.advance, rsp := none }) ∨
      (s.cd.active = true ∧ s.cd.rem = 1 ∧
        s.clockAdvance.countdownTick.silent =
          { s with
            clk := s.clk.advance
            cd := { rem := 0, active := false, complete := true }
            out := { heat := false, plate := false }
            rsp := none }) ∨
      (s.cd.active = true ∧ 2 ≤ s.cd.rem.toNat ∧
        s.clockAdvance.countdownTick.silent =
          { s with
            clk := s.clk.advance
            cd := { s.cd with rem := s.cd.rem - 1 }
            out := { s.out with heat := decideHeating s.mode (s.cd.rem - 1).toNat }
            rsp := none }) := by
  obtain ⟨h, e⟩ | ⟨h, h', e⟩ | ⟨h, h', e⟩ := countdownTick_cases s.clockAdvance <;> rw [e]
  · exact .inl ⟨h, rfl⟩
  · exact .inr (.inl ⟨h, h', rfl⟩)
  · exact .inr (.inr ⟨h, h', rfl⟩)

/-- The two ways SETREM ends (R87). -/
theorem setRemaining_cases (width : Nat) (sss : BitVec 24) (s : State) :
    (sss.toNat < 2 ^ width ∧ s.setRemaining width sss = { s with cd := { s.cd with rem := sss }, rsp := none }) ∨
      (2 ^ width ≤ sss.toNat ∧
        s.setRemaining width sss =
          { s with fault := { kind := .contractViolation, info := encode (.setrem sss) }, rsp := none }) := by
  unfold State.setRemaining
  split
  · exact .inl ⟨(secsFit_iff width sss).mp ‹_›, rfl⟩
  · exact .inr ⟨by rw [secsFit_iff] at *; omega, rfl⟩

/-! The inputs. -/

theorem stopped_iff (s : State) : s.stopped = true ↔ s.fault.kind ≠ .none := by simp [State.stopped]

theorem not_stopped_iff (s : State) : s.stopped = false ↔ s.fault.kind = .none := by simp [State.stopped]

/-- Discarding an arrival touches the inputs and `rsp` only. -/
theorem discardArrival_frame (s : State) :
    s.discardArrival.clk = s.clk ∧ s.discardArrival.cd = s.cd ∧ s.discardArrival.mode = s.mode ∧
      s.discardArrival.out = s.out ∧ s.discardArrival.fault = s.fault ∧
      s.discardArrival.simulCount = s.simulCount := by
  unfold State.discardArrival
  split <;> simp

/-- Taking an arrival touches the inputs only. -/
theorem takeArrival_frame (s : State) :
    s.takeArrival.2.clk = s.clk ∧ s.takeArrival.2.cd = s.cd ∧ s.takeArrival.2.mode = s.mode ∧
      s.takeArrival.2.out = s.out ∧ s.takeArrival.2.fault = s.fault ∧ s.takeArrival.2.rsp = s.rsp := by
  unfold State.takeArrival
  split <;> try simp
  split <;> simp

/-- What `takeArrival` gives, by what has arrived. -/
theorem takeArrival_cases (s : State) :
    (s.arrivals = [] ∧ s.takeArrival = (.nothing, s)) ∨
      (∃ ch w u, s.takeArrival = (.word ch w, u)) ∨
      (∃ ok rest, s.arrivals = .reset ok :: rest ∧ s.takeArrival = (.reset ok, { s with arrivals := rest })) ∨
      (∃ rest, s.arrivals = .narrowWrite :: rest ∧ s.takeArrival = (.narrowWrite, s)) := by
  unfold State.takeArrival
  split
  · exact .inl ⟨‹_›, rfl⟩
  · exact .inr (.inl ⟨_, _, _, rfl⟩)
  · exact .inr (.inl ⟨_, _, _, rfl⟩)
  · split <;> exact .inr (.inl ⟨_, _, _, rfl⟩)
  · exact .inr (.inl ⟨_, _, _, rfl⟩)
  · exact .inr (.inl ⟨_, _, _, rfl⟩)
  · exact .inr (.inr (.inl ⟨_, _, ‹_›, rfl⟩))
  · exact .inr (.inr (.inr ⟨_, ‹_›, rfl⟩))

/-- What `fetch` gives, by what has arrived. -/
theorem fetch_cases (s : State) :
    (∃ ok rest, s.arrivals = .reset ok :: rest ∧ s.fetch = (.reset ok, { s with arrivals := rest })) ∨
      (∃ rest, s.arrivals = .narrowWrite :: rest ∧ s.fetch = (.narrowWrite, s)) ∨
      ((∀ ok rest, s.arrivals ≠ .reset ok :: rest) ∧ (∀ rest, s.arrivals ≠ .narrowWrite :: rest) ∧
        ((s.stopped = true ∧ s.fetch = (.nothing, s.discardArrival)) ∨
          (∃ w, s.stopped = false ∧ s.pendingTick = some w ∧
            s.fetch = (.word .tick w, { s with pendingTick := none })) ∨
          (s.stopped = false ∧ s.pendingTick = none ∧ s.fetch = s.takeArrival))) := by
  unfold State.fetch
  split
  · exact .inl ⟨_, _, ‹_›, rfl⟩
  · exact .inr (.inl ⟨_, ‹_›, rfl⟩)
  · rename_i h1 h2
    refine .inr (.inr ⟨h1, h2, ?_⟩)
    cases hs : s.stopped
    · cases hp : s.pendingTick with
      | none => exact .inr (.inr ⟨rfl, rfl, by simp⟩)
      | some w => exact .inr (.inl ⟨w, rfl, rfl, by simp⟩)
    · exact .inl ⟨rfl, by simp⟩

/-- Fetching changes no register of R21. -/
theorem fetch_frame (s : State) :
    s.fetch.2.clk = s.clk ∧ s.fetch.2.cd = s.cd ∧ s.fetch.2.mode = s.mode ∧ s.fetch.2.out = s.out ∧
      s.fetch.2.fault = s.fault := by
  obtain ⟨ok, rest, -, h⟩ | ⟨rest, -, h⟩ | ⟨-, -, ⟨-, h⟩ | ⟨w, -, -, h⟩ | ⟨-, -, h⟩⟩ := fetch_cases s <;> rw [h]
  · exact ⟨rfl, rfl, rfl, rfl, rfl⟩
  · exact ⟨rfl, rfl, rfl, rfl, rfl⟩
  · exact ⟨(discardArrival_frame s).1, (discardArrival_frame s).2.1, (discardArrival_frame s).2.2.1,
      (discardArrival_frame s).2.2.2.1, (discardArrival_frame s).2.2.2.2.1⟩
  · exact ⟨rfl, rfl, rfl, rfl, rfl⟩
  · exact ⟨(takeArrival_frame s).1, (takeArrival_frame s).2.1, (takeArrival_frame s).2.2.1,
      (takeArrival_frame s).2.2.2.1, (takeArrival_frame s).2.2.2.2.1⟩

/-- A word is taken only by a block that is not stopped (R117). -/
theorem not_stopped_of_fetch_word {s t : State} {ch : Channel} {w : Word} (h : s.fetch = (.word ch w, t)) :
    s.stopped = false := by
  obtain ⟨ok, rest, -, h'⟩ | ⟨rest, -, h'⟩ | ⟨-, -, ⟨-, h'⟩ | ⟨v, hs, -, h'⟩ | ⟨hs, -, h'⟩⟩ := fetch_cases s
  · rw [h'] at h; cases h
  · rw [h'] at h; cases h
  · rw [h'] at h; cases h
  · exact hs
  · exact hs

end Sys2Proof.Machine
end

