-- ==== Sys2Proof/Laws/Step.lean ====
section
/-! SUPPORT. What a step can do, and how runs unfold. -/

namespace Sys2Proof.Machine

/-- A word that decodes runs as its command. -/
theorem runWord_ok {s : State} {ch : Channel} {w : Word} {i : Instr} (h : decode ch w = .ok i) :
    s.runWord ch w = exec i s := by
  simp only [State.runWord, h]

/-- A word that is no command raises ILLEGAL_COMMAND. -/
theorem runWord_error {s : State} {ch : Channel} {w : Word} {e : DecodeError} (h : decode ch w = .error e) :
    s.runWord ch w = .next (s.illegalCommand w) := by
  simp only [State.runWord, h]

/-- Every command completes: `exec` answers a next state. -/
theorem exec_next (i : Instr) (s : State) : ∃ t, exec i s = .next t := by
  cases i with
  | settime hh mm =>
    show ∃ t, execSettime hh mm s = .next t
    unfold execSettime; split <;> exact ⟨_, rfl⟩
  | start md =>
    show ∃ t, execStart md s = .next t
    unfold execStart; split <;> exact ⟨_, rfl⟩
  | duty md rrr =>
    show ∃ t, execDuty md rrr s = .next t
    unfold execDuty; split <;> exact ⟨_, rfl⟩
  | _ => exact ⟨_, rfl⟩

/-- Everything a command can do: give a response, overwrite its registers, raise a fault, or tick. -/
theorem exec_cases {i : Instr} {s t : State} (h : exec i s = .next t) :
    (∃ v, t = { s with rsp := some v } ∧
        (i = .gettime ∨ i = .getrem ∨ i = .peek ∨ i = .status ∨ ∃ md r, i = .duty md r)) ∨
      (∃ hh mm, i = .settime hh mm ∧ hh.toNat ≤ 23 ∧ mm.toNat ≤ 59 ∧
        t = { s with clk := { s.clk with h := hh, m := mm }, rsp := none }) ∨
      (∃ hh mm, i = .settime hh mm ∧ (23 < hh.toNat ∨ 59 < mm.toNat) ∧
        t = { s with fault := { kind := .contractViolation, info := encode i }, rsp := none }) ∨
      (∃ sss, i = .setrem sss ∧ sss.toNat < 2 ^ Config.wRem ∧
        t = { s with cd := { s.cd with rem := sss }, rsp := none }) ∨
      (∃ sss, i = .setrem sss ∧ 2 ^ Config.wRem ≤ sss.toNat ∧
        t = { s with fault := { kind := .contractViolation, info := encode i }, rsp := none }) ∨
      (∃ m : PowerMode, i = .start m.code ∧
        t =
          { s with
            cd := { s.cd with active := true, complete := false }
            mode := m
            out := { s.out with plate := true }
            rsp := none }) ∨
      (i.wellFormed = false ∧ (i = .start 3 ∨ ∃ r, i = .duty 3 r) ∧
        t = { s with fault := { kind := .illegalCommand, info := encode i }, rsp := none }) ∨
      (i = .stop ∧
        t = { s with cd := { s.cd with active := false }, out := { heat := false, plate := false }, rsp := none }) ∨
      (i = .ack ∧ t = { s with cd := { s.cd with complete := false }, rsp := none }) ∨
      (i = .tick ∧ t = s.clockAdvance.countdownTick.silent) := by
  cases i with
  | gettime => cases h; exact .inl ⟨_, rfl, .inl rfl⟩
  | getrem => cases h; exact .inl ⟨_, rfl, .inr (.inl rfl)⟩
  | peek => cases h; exact .inl ⟨_, rfl, .inr (.inr (.inl rfl))⟩
  | status => cases h; exact .inl ⟨_, rfl, .inr (.inr (.inr (.inl rfl)))⟩
  | stop => cases h; simp; rfl
  | ack => cases h; simp; rfl
  | settime hh mm =>
    simp only [exec, execSettime] at h
    split at h <;> rename_i hr <;> cases h
    · have hb := (timeInRange_iff hh mm).mp hr
      exact .inr (.inl ⟨hh, mm, rfl, hb.1, hb.2, rfl⟩)
    · rw [timeInRange_iff] at hr
      exact .inr (.inr (.inl ⟨hh, mm, rfl, by omega, rfl⟩))
  | setrem sss =>
    simp only [exec, execSetrem] at h
    cases h
    obtain ⟨hl, e⟩ | ⟨hl, e⟩ := setRemaining_cases Config.wRem sss s
    · exact .inr (.inr (.inr (.inl ⟨sss, rfl, hl, e⟩)))
    · exact .inr (.inr (.inr (.inr (.inl ⟨sss, rfl, hl, e⟩))))
  | start md =>
    simp only [exec, execStart] at h
    split at h <;> rename_i hr <;> cases h
    · rw [code_of_modeOf hr]
      exact .inr (.inr (.inr (.inr (.inr (.inl ⟨_, rfl, rfl⟩)))))
    · rw [(modeOf_eq_none_iff md).mp hr]
      exact .inr (.inr (.inr (.inr (.inr (.inr (.inl ⟨rfl, .inl rfl, rfl⟩))))))
  | duty md rrr =>
    simp only [exec, execDuty] at h
    split at h <;> rename_i hr <;> cases h
    · exact .inl ⟨_, rfl, .inr (.inr (.inr (.inr ⟨_, _, rfl⟩)))⟩
    · rw [(modeOf_eq_none_iff md).mp hr]
      exact .inr (.inr (.inr (.inr (.inr (.inr (.inl ⟨rfl, .inr ⟨_, rfl⟩, rfl⟩))))))
  | tick => cases h; simp

/-- No command touches what is still to arrive. -/
theorem exec_inputs {i : Instr} {s t : State} (h : exec i s = .next t) :
    t.arrivals = s.arrivals ∧ t.pendingTick = s.pendingTick ∧ t.simulCount = s.simulCount := by
  obtain ⟨v, rfl, -⟩ | ⟨_, _, -, -, -, rfl⟩ | ⟨_, _, -, -, rfl⟩ | ⟨_, -, -, rfl⟩ | ⟨_, -, -, rfl⟩ | ⟨_, -, rfl⟩ |
    ⟨-, -, rfl⟩ | ⟨-, rfl⟩ | ⟨-, rfl⟩ | ⟨-, rfl⟩ := exec_cases h
  any_goals exact ⟨rfl, rfl, rfl⟩
  obtain ⟨-, e⟩ | ⟨-, -, e⟩ | ⟨-, -, e⟩ := tick_cases s <;> rw [e] <;> exact ⟨rfl, rfl, rfl⟩

/-- A word always completes. -/
theorem runWord_next (s : State) (ch : Channel) (w : Word) : ∃ t, s.runWord ch w = .next t := by
  cases hd : decode ch w with
  | ok i => rw [runWord_ok hd]; exact exec_next i s
  | error e => rw [runWord_error hd]; exact ⟨_, rfl⟩

/-! Which word the block takes. -/

section
variable {s : State} {w : Word} {rest : List Arrival}

theorem fetch_cmd (hs : s.fault.kind = .none) (hp : s.pendingTick = none) (ha : s.arrivals = .cmd w :: rest) :
    s.fetch = (.word .cmd w, { s with arrivals := rest }) := by
  simp [State.fetch, State.takeArrival, State.stopped, ha, hs, hp]

theorem fetch_tick (hs : s.fault.kind = .none) (hp : s.pendingTick = none) (ha : s.arrivals = .tick w :: rest) :
    s.fetch = (.word .tick w, { s with arrivals := rest }) := by
  simp [State.fetch, State.takeArrival, State.stopped, ha, hs, hp]

theorem fetch_tickDuringCmd {v : Word} (hs : s.fault.kind = .none) (hp : s.pendingTick = none)
    (ha : s.arrivals = .tickDuringCmd w v :: rest) :
    s.fetch = (.word .cmd w, { s with arrivals := rest, pendingTick := some v }) := by
  simp [State.fetch, State.takeArrival, State.stopped, ha, hs, hp]

theorem fetch_busWrite {b0 b1 b2 b3 : Byte} (hs : s.fault.kind = .none) (hp : s.pendingTick = none)
    (ha : s.arrivals = .busWrite b0 b1 b2 b3 :: rest) :
    s.fetch = (.word .cmd (wordOfBus Config.busEndian b0 b1 b2 b3), { s with arrivals := rest }) := by
  simp [State.fetch, State.takeArrival, State.stopped, ha, hs, hp]

theorem fetch_simultaneous {c : Word} (hs : s.fault.kind = .none) (hp : s.pendingTick = none)
    (ha : s.arrivals = .simultaneous c w :: rest) :
    s.fetch = (.word .tick w, { s with arrivals := .cmd c :: rest, simulCount := s.simulCount + 1 }) ∨
      s.fetch = (.word .cmd c, { s with arrivals := .tick w :: rest, simulCount := s.simulCount + 1 }) := by
  simp only [State.fetch, State.takeArrival, State.stopped, ha, hs, hp]
  by_cases h : Config.simulTickFirst s.simulCount = true <;> simp [h]

theorem fetch_pending (hs : s.fault.kind = .none) (hp : s.pendingTick = some w)
    (h1 : ∀ ok r, s.arrivals ≠ .reset ok :: r) (h2 : ∀ r, s.arrivals ≠ .narrowWrite :: r) :
    s.fetch = (.word .tick w, { s with pendingTick := none }) := by
  obtain ⟨_, _, h, -⟩ | ⟨_, h, -⟩ | ⟨-, -, ⟨hs', -⟩ | ⟨v, -, hv, e⟩ | ⟨-, hv, -⟩⟩ := fetch_cases s
  · exact absurd h (h1 _ _)
  · exact absurd h (h2 _)
  · exact absurd hs ((stopped_iff s).mp hs')
  · rw [hp] at hv; cases hv; exact e
  · rw [hp] at hv; cases hv

/-- What `NextWord` says comes next is what `fetch` gives. -/
theorem fetch_of_nextWord {ch : Channel} {u : State} (hs : s.NoFault) (h : s.NextWord ch w u) :
    s.fetch = (.word ch w, u) := by
  cases h with
  | cmd hp ha => exact fetch_cmd hs hp ha
  | tick hp ha => exact fetch_tick hs hp ha
  | tickDuringCmd hp ha => exact fetch_tickDuringCmd hs hp ha
  | busWrite hp ha => exact fetch_busWrite hs hp ha
  | pendingTick hp h1 h2 => exact fetch_pending hs hp h1 h2

/-- A step that takes a word runs that word. -/
theorem step_of_fetch_word {ch : Channel} {u : State} (h : s.fetch = (.word ch w, u)) : step s = u.runWord ch w := by
  simp only [step, h]

end

/-- A step that answers a next state: nothing was taken, or the block was reset, or a command ran, or a word was no
command. -/
theorem step_cases {s t : State} (h : step s = .next t) :
    (s.fetch = (.nothing, t)) ∨
      (∃ ok u, s.fetch = (.reset ok, u) ∧ t = u.resetBlock ok) ∨
      (∃ ch w i u, s.fetch = (.word ch w, u) ∧ decode ch w = .ok i ∧ exec i u = .next t) ∨
      (∃ ch w e u, s.fetch = (.word ch w, u) ∧ decode ch w = .error e ∧ t = u.illegalCommand w) := by
  unfold step at h
  split at h
  · cases h; exact .inl ‹_›
  · cases h; exact .inr (.inl ⟨_, _, ‹_›, rfl⟩)
  · rename_i ch w u hf
    cases hd : decode ch w with
    | ok i => rw [runWord_ok hd] at h; exact .inr (.inr (.inl ⟨ch, w, i, u, hf, hd, h⟩))
    | error e => rw [runWord_error hd] at h; cases h; exact .inr (.inr (.inr ⟨ch, w, e, u, hf, hd, rfl⟩))
  · cases h

theorem run_zero (s : State) : Sys2Proof.core.run 0 s = .next s := rfl

/-- A run whose first step answers a next state. -/
theorem run_succ {s t : State} (n : Nat) (h : step s = .next t) :
    Sys2Proof.core.run (n + 1) s = Sys2Proof.core.run n t := by
  have hc : Sys2Proof.core.step s = .next t := h
  simp only [Host.Core.run, hc]

end Sys2Proof.Machine
end

