-- ==== Sys2Proof/Tests/Slice0.lean ====
section
/-! SUPPORT. Tests with expected results from spec/ (the number of a vector of 95_test_vectors.md stands in the
comment), and for each statement with hypotheses a theorem that meets them. -/

namespace Sys2Proof.Tests

open Sys2Proof Sys2Proof.Machine

/-! Helpers. -/

/-- A part of the next state, if there is one. -/
def seen {α : Type} (f : State → α) : Host.Outcome State Fault Refusal → Option α
  | .next s => some (f s)
  | .fault _ => none
  | .refused _ => none

/-- Reset with another clock. -/
def atClock (h : BitVec 5) (m s : BitVec 6) : State := { State.reset with clk := { h := h, m := m, s := s } }

/-- Running, from reset: plate on. -/
def running (rem : BitVec 24) (mode : PowerMode) (heat : Bool) : State :=
  { State.reset with
    cd := { rem := rem, active := true, complete := false }
    mode := mode
    out := { heat := heat, plate := true } }

/-- Expired, from reset. -/
def expired (mode : PowerMode) : State :=
  { State.reset with cd := { rem := 0, active := false, complete := true }, mode := mode }

/-- Stopped by the all-zero word. -/
def stoppedState : State := { State.reset with fault := { kind := .illegalCommand, info := 0 } }

/-- With something arriving. -/
def arriving (s : State) (as : List Arrival) : State := { s with arrivals := as }

/-! Well-formed commands, and what the assembler refuses (R73, R77). -/

theorem test_wellFormed_refuses_start_code3 : (Instr.start 3).wellFormed = false := by decide
theorem test_wellFormed_refuses_duty_code3 : (Instr.duty 3 7).wellFormed = false := by decide
theorem test_wellFormed_accepts_the_other_codes :
    ∀ md : BitVec 2, md ≠ 3 → (Instr.start md).wellFormed = true ∧ (Instr.duty md 0xFFFFFF).wellFormed = true := by
  decide
theorem test_wellFormed_accepts_out_of_range : (Instr.settime 31 63).wellFormed = true := by decide

theorem test_assembler_refuses_hours_32 : assembleText "SETTIME 32, 0" = none := by decide +kernel
theorem test_assembler_refuses_minutes_64 : assembleText "SETTIME 0, 64" = none := by decide +kernel
theorem test_assembler_refuses_seconds_2_24 : assembleText "SETREM 16777216" = none := by decide +kernel
theorem test_assembler_refuses_query_2_24 : assembleText "DUTY LOW, 0x1000000" = none := by decide +kernel
theorem test_assembler_refuses_mode : assembleText "START MEDIUM" = none := by decide +kernel
theorem test_assembler_settime :
    (assembleText "SETTIME 23, 59 ; comment").map (·.map encode) = some [0x20173B00#32] := by decide +kernel
theorem test_assembler_duty :
    (assembleText "  DUTY low, 0x1D").map (·.map encode) = some [0x9100001D#32] := by decide +kernel
theorem test_assembler_cook :
    (assembleText "COOK 10, Defrost").map (·.map encode) = some [0x4000000A#32, 0x50000002#32] := by decide +kernel
theorem test_assembler_ticks_and_cancel :
    assembleText "TICK*3" = some [.tick, .tick, .tick] ∧
      (assembleText "CANCEL").map (·.map encode) = some [0x60000000#32, 0x40000000#32] := by decide +kernel

/-! Decoding: words written out from R69 and R77, and the vectors. -/

theorem test_decode_gettime : decode .cmd 0x10000000#32 = .ok .gettime := by decide
theorem test_decode_settime : decode .cmd 0x20173B00#32 = .ok (.settime 23 59) := by decide -- CL14
theorem test_decode_settime_operands :
    decode .cmd 0b00100000000100000000000100000000#32 = .ok (.settime 16 1) := by decide
theorem test_decode_getrem : decode .cmd 0x30000000#32 = .ok .getrem := by decide
theorem test_decode_setrem : decode .cmd 0x40FFFFFF#32 = .ok (.setrem 16777215) := by decide -- K6
theorem test_decode_setrem_bits : decode .cmd 0b01000000100000000000000000000001#32 = .ok (.setrem 8388609) := by decide
theorem test_decode_start :
    decode .cmd 0x50000000#32 = .ok (.start PowerMode.high.code) ∧
      decode .cmd 0x50000001#32 = .ok (.start PowerMode.low.code) ∧
      decode .cmd 0x50000002#32 = .ok (.start PowerMode.defrost.code) := by decide
theorem test_decode_stop : decode .cmd 0x60000000#32 = .ok .stop := by decide
theorem test_decode_ack : decode .cmd 0x70000000#32 = .ok .ack := by decide
theorem test_decode_peek : decode .cmd 0x80000000#32 = .ok .peek := by decide
theorem test_decode_duty : decode .cmd 0x9100001D#32 = .ok (.duty 1 29) := by decide -- Q4
theorem test_decode_duty_defrost : decode .cmd 0x92FFFFFF#32 = .ok (.duty 2 16777215) := by decide -- Q6
theorem test_decode_status : decode .cmd 0xA0000000#32 = .ok .status := by decide
theorem test_decode_tick : decode .tick 0xF0000000#32 = .ok .tick := by decide -- T1

theorem test_decode_reserved_opcodes : -- F1, F2, F3
    [0x00000000#32, 0xB0000000#32, 0xC0000000#32, 0xD0000000#32, 0xE0000000#32].map (decode .cmd) =
      List.replicate 5 (.error .reservedOpcode) := by decide
theorem test_decode_reserved_bits : -- CL21, CL22, CL23, CL24, K7, K14, Q8, F4, F5
    [0x20173B01#32, 0x20200000#32, 0x203F3F00#32, 0x10000001#32, 0x41000000#32, 0x50000004#32, 0x94000000#32,
        0x60000001#32, 0xA0000020#32].map (decode .cmd) = List.replicate 9 (.error .reservedBit) := by decide
theorem test_decode_mode_code3 : -- K13, Q7
    decode .cmd 0x50000003#32 = .error .modeCodeThree ∧ decode .cmd 0x93000000#32 = .error .modeCodeThree := by decide
theorem test_decode_channels : -- T2, T3
    decode .cmd 0xF0000000#32 = .error .tickOnCmd ∧ decode .tick 0x10000000#32 = .error .otherOnTick := by decide

theorem test_encode_is_the_spec_word : -- R77
    encode (.settime 23 59) = 0x20173B00#32 ∧ encode (.setrem 12) = 0x4000000C#32 ∧
      encode (.duty 2 7) = 0x92000007#32 ∧ encode (.start 1) = 0x50000001#32 ∧ encode .tick = 0xF0000000#32 := by decide

theorem test_decodeTableWord :
    decodeTableWord 32 0x20000000 = some (.settime 0 0) ∧ decodeTableWord 32 0xF0000000 = some .tick ∧
      decodeTableWord 32 0xB0000000 = none := by decide

theorem test_step_runs_placed_word :
    seen (·.clk.s) (step (State.reset.withFetchWord 32 0xF0000000)) = some 1 ∧
      seen (·.rsp) (step (State.reset.withFetchWord 32 0x10000000)) = some (some 0x100#32) := by decide
theorem test_step_runs_placed_setrem :
    seen (·.cd.rem) (step ((running 7 .low true).withFetchWord 32 0x40000000)) = some 0 := by decide

/-! The commands. -/

theorem test_gettime : -- CL11, CL13
    seen (·.rsp) (exec .gettime State.reset) = some (some 0x00000100#32) ∧
      seen (·.rsp) (exec .gettime (atClock 12 34 56)) = some (some 0x000C2238#32) := by decide
theorem test_gettime_top : seen (·.rsp) (exec .gettime (atClock 23 59 59)) = some (some 0x00173B3B#32) := by decide -- CL12
theorem test_settime_keeps_seconds : -- CL14
    seen (·.clk) (exec (.settime 23 59) (atClock 0 1 42)) = some { h := 23, m := 59, s := 42 } := by decide
theorem test_settime_out_of_range : -- CL18, CL19
    seen (fun t => (t.clk, t.fault)) (exec (.settime 24 0) (atClock 23 59 59)) =
        some ({ h := 23, m := 59, s := 59 }, { kind := .contractViolation, info := 0x20180000 }) ∧
      seen (·.fault) (exec (.settime 0 60) State.reset) =
        some { kind := .contractViolation, info := 0x20003C00 } := by decide
theorem test_getrem : -- K8
    seen (·.rsp) (exec .getrem (running 9 .low false)) = some (some 0x00000009#32) := by decide
theorem test_setrem_width : -- K4, K5
    (State.reset.setRemaining 16 65535).cd.rem = 65535 ∧ (State.reset.setRemaining 16 65536).cd.rem = 0 ∧
      (State.reset.setRemaining 16 65536).fault = { kind := .contractViolation, info := 0x40010000 } := by decide
theorem test_setrem_keeps_flags : -- K3, K6
    ((expired .low).setRemaining 24 16777215).cd = { rem := 16777215, active := false, complete := true } := by decide
theorem test_start_from_expired : -- K11
    seen (fun t => (t.cd, t.mode, t.out)) (exec (.start 2) (expired .low)) =
      some ({ rem := 0, active := true, complete := false }, .defrost, { heat := false, plate := true }) := by decide
theorem test_start_keeps_heat : -- K12
    seen (fun t => (t.cd.rem, t.mode, t.out)) (exec (.start 0) (running 7 .low true)) =
      some (7, .high, { heat := true, plate := true }) := by decide
theorem test_stop : -- K15, K16
    seen (fun t => (t.cd, t.out)) (exec .stop (running 7 .low true)) =
        some ({ rem := 7, active := false, complete := false }, { heat := false, plate := false }) ∧
      seen (·.cd.complete) (exec .stop (expired .low)) = some true := by decide
theorem test_ack : -- K18, K19
    seen (·.cd.complete) (exec .ack (expired .low)) = some false ∧
      seen (fun t => (t.cd, t.out)) (exec .ack (running 7 .low true)) =
        some ((running 7 .low true).cd, (running 7 .low true).out) := by decide
theorem test_peek : -- K20, K21
    seen (fun t => (t.rsp, t.cd.complete)) (exec .peek (expired .low)) = some (some 1#32, true) ∧
      seen (·.rsp) (exec .peek State.reset) = some (some 0#32) := by decide
theorem test_status : -- K23, K24
    seen (·.rsp) (exec .status (running 7 .defrost true)) = some (some 0x39#32) ∧
      seen (·.rsp) (exec .status (expired .low)) = some (some 0x06#32) := by decide
theorem test_duty_table : -- L2.3, the Low and Defrost columns for r = 9 down to 0
    [9, 8, 7, 6, 5, 4, 3, 2, 1, 0].map (decideHeating .low) =
        [true, true, true, true, true, true, false, false, false, false] ∧
      [9, 8, 7, 6, 5, 4, 3, 2, 1, 0].map (decideHeating .defrost) =
        [true, true, true, false, false, false, false, false, false, false] := by decide
theorem test_duty : -- Q6, Q9
    seen (·.rsp) (exec (.duty 2 16777215) State.reset) = some (some 0#32) ∧
      seen (fun t => (t.rsp, t.mode)) (exec (.duty 1 9) (running 7 .defrost true)) =
        some (some 1#32, .defrost) := by decide
theorem test_tick_expires_and_wraps : -- K31, K35
    seen (fun t => (t.clk, t.cd, t.out)) (exec .tick { running 1 .high true with clk := { h := 23, m := 59, s := 59 } }) =
      some ({ h := 0, m := 0, s := 0 }, { rem := 0, active := false, complete := true },
        { heat := false, plate := false }) := by decide
theorem test_tick_decides : -- K26, K29
    seen (fun t => (t.cd.rem, t.out.heat)) (exec .tick (running 10 .low false)) = some (9, true) ∧
      seen (fun t => (t.cd.rem, t.out.heat)) (exec .tick (running 7 .defrost true)) = some (6, false) := by decide
theorem test_tick_zero_length_holds : -- K32, one tick
    seen (fun t => (t.cd, t.out, t.clk.s)) (exec .tick (running 0 .low true)) =
      some ((running 0 .low true).cd, (running 0 .low true).out, 1) := by decide
theorem test_clock_advance : -- CL2, CL3, CL6
    (atClock 0 0 59).clk.advance = { h := 0, m := 1, s := 0 } ∧
      (atClock 0 59 59).clk.advance = { h := 1, m := 0, s := 0 } ∧
      (atClock 23 58 59).clk.advance = { h := 23, m := 59, s := 0 } := by decide

/-! Arrivals, faults, reset. -/

theorem test_illegal_word_stops : -- F1
    seen (fun t => (t.clk, t.fault)) (step (arriving State.reset [.cmd 0])) =
      some (State.reset.clk, { kind := .illegalCommand, info := 0 }) := by decide
theorem test_stopped_block_drops_gettime : -- F6
    step (arriving stoppedState [.cmd 0x10000000#32]) = .next stoppedState := rfl
theorem test_stopped_block_drops_pending_tick :
    seen (fun t => (t.clk, t.pendingTick)) (step { stoppedState with pendingTick := some 0xF0000000#32 }) =
      some (State.reset.clk, none) := by decide
theorem test_reset_leads_out : -- F8
    step (arriving stoppedState [.reset true]) = .next State.reset := rfl
theorem test_reset_misconfigured : -- F7
    seen (·.fault) (step (arriving State.reset [.reset false])) =
      some { kind := .startupMisconfig, info := 0 } := by decide
theorem test_reset_abandons_pending_tick :
    seen (fun t => (t.pendingTick, t.clk)) (step { atClock 5 5 5 with
        pendingTick := some 0xF0000000#32, arrivals := [.reset true] }) = some (none, State.reset.clk) := by decide
theorem test_pending_tick_goes_first : -- R120
    seen (fun t => (t.clk.s, t.cd.active, t.pendingTick)) (step { State.reset with
        pendingTick := some 0xF0000000#32, arrivals := [.cmd 0x50000000#32] }) = some (1, false, none) := by decide
theorem test_narrow_write_refused : -- U9
    step (arriving State.reset [.narrowWrite]) = .refused .narrowWriteOutsideSpec := rfl
theorem test_idle_holds : step State.reset = .next State.reset := rfl
theorem test_pending_illegal_tick_word_stops : -- T3, as a pending word
    seen (fun t => (t.fault, t.pendingTick)) (step { State.reset with pendingTick := some 0x10000000#32 }) =
      some ({ kind := .illegalCommand, info := 0x10000000 }, none) := by decide
theorem test_bus_write_both_orders : -- R47
    wordOfBus .little 0x00 0x3B 0x17 0x20 = 0x20173B00#32 ∧ wordOfBus .big 0x20 0x17 0x3B 0x00 = 0x20173B00#32 := by
  decide

/-! Witnesses: concrete states and operands that meet the hypotheses of the statements, at the boundaries. -/

theorem one_lt_width : (1#24).toNat < 2 ^ Config.wRem := by
  have := Nat.pow_le_pow_right (n := 2) (by decide) (show 1 ≤ Config.wRem by simp [Config.wRem])
  simp only [Nat.pow_one] at this
  exact Nat.lt_of_lt_of_le (by decide) this

theorem reset_inv : State.reset.Inv where
  clock := ⟨by decide, by decide, by decide⟩
  rem := Nat.two_pow_pos _
  flags := by decide
  plate := rfl
  heat := by decide
  fault := rfl

theorem running_inv (mode : PowerMode) (heat : Bool) : (running 1 mode heat).Inv where
  clock := reset_inv.clock
  rem := one_lt_width
  flags := by simp [running]
  plate := rfl
  heat := fun _ => rfl
  fault := rfl

theorem witness_DecodeOfEncode :
    (Instr.start 2).wellFormed = true ∧ (Instr.duty 0 0xFFFFFF).wellFormed = true ∧
      (Instr.settime 31 63).wellFormed = true := by decide
theorem witness_EncodeOfDecode :
    decode .cmd 0x92FFFFFF#32 = .ok (.duty 2 16777215) ∧ decode .tick 0xF0000000#32 = .ok .tick := by decide
theorem witness_OpcodeRowsDisjoint :
    0x201F3F00#32 &&& Opcode.settime.mask = Opcode.settime.pattern ∧
      0x93FFFFFF#32 &&& Opcode.duty.mask = Opcode.duty.pattern := by decide
theorem witness_GettimeResponseMakesSettime :
    exec .gettime State.reset = .next { State.reset with rsp := some 0x100#32 } := rfl
theorem witness_AssemblerForms :
    modeOfName "dEFROST".toList = some .defrost ∧ modeOfName "High".toList = some .high ∧
      modeOfName "low".toList = some .low ∧ modeOfName "".toList = none ∧
      (AsmLine.settime 31 63).assemble = some [.settime 31 63] ∧ (AsmLine.settime 32 63).assemble = none ∧
      (AsmLine.setrem (2 ^ 24 - 1)).assemble = some [.setrem 0xFFFFFF] ∧
      (AsmLine.setrem (2 ^ 24)).assemble = none := by decide +kernel
theorem witness_IllegalCommandExactly :
    State.reset.NoFault ∧ IllegalWord .cmd 0xB0000000#32 ∧ IllegalWord .cmd 0xF0000000#32 ∧
      IllegalWord .tick 0x10000000#32 ∧ IllegalWord .cmd 0x50000003#32 ∧ IllegalWord .cmd 0x93000000#32 ∧
      ¬IllegalWord .cmd 0x92FFFFFF#32 ∧ ¬IllegalWord .tick 0xF0000000#32 := by
  unfold IllegalWord
  exact ⟨rfl, by decide, by decide, by decide, by decide, by decide, by decide, by decide⟩
theorem witness_ContractViolationExactly :
    State.reset.NoFault ∧ OutOfRangeWord 0x20180000#32 ∧ OutOfRangeWord 0x20003C00#32 ∧
      ¬OutOfRangeWord 0x20173B00#32 := by
  refine ⟨rfl, .inl ⟨by decide, .inl (by decide)⟩, .inl ⟨by decide, .inr (by decide)⟩, ?_⟩
  rintro (⟨-, h⟩ | ⟨h, -⟩)
  · revert h; decide
  · revert h; decide
theorem witness_FaultStopsBlock :
    State.reset.NoFault ∧ State.reset.runWord .cmd 0 = .next stoppedState ∧ ¬stoppedState.NoFault ∧
      (∀ ok rest, (arriving stoppedState [.cmd 0x10000000#32]).arrivals ≠ .reset ok :: rest) ∧
      step (arriving stoppedState [.cmd 0x10000000#32]) = .next stoppedState ∧
      (arriving stoppedState [.reset true]).arrivals = .reset true :: [] := by
  refine ⟨rfl, rfl, by simp [stoppedState, State.NoFault], by simp [arriving], rfl, rfl⟩
theorem witness_StoppedBlockDropsArrivals :
    ¬(arriving stoppedState [.cmd 0]).NoFault ∧ (arriving stoppedState [.cmd 0]).pendingTick = none ∧
      (∀ ok, Arrival.cmd 0 ≠ .reset ok) ∧ Arrival.cmd 0 ≠ .narrowWrite ∧
      (arriving stoppedState []).arrivals = [] := by
  refine ⟨by simp [arriving, stoppedState, State.NoFault], rfl, by simp, by simp, rfl⟩
theorem witness_StoppedBlockDropsArrivals_pending :
    ¬{ stoppedState with pendingTick := some 0#32 }.NoFault ∧ (∀ ok rest, stoppedState.arrivals ≠ .reset ok :: rest) ∧
      ∀ rest, stoppedState.arrivals ≠ .narrowWrite :: rest := by
  refine ⟨by simp [stoppedState, State.NoFault], ?_, ?_⟩ <;> simp [stoppedState, State.reset]
theorem witness_ResetSequence : (arriving stoppedState [.reset false]).arrivals = .reset false :: [] := rfl
theorem witness_SettimeOverwritesHoursMinutes :
    ((23#5).toNat ≤ 23 ∧ (59#6).toNat ≤ 59) ∧ 23 < (24#5).toNat ∧ 59 < (60#6).toNat := by decide
theorem witness_SetremOverwritesRemaining :
    (0#24).toNat < 2 ^ Config.wRem ∧ (1#24).toNat < 2 ^ Config.wRem ∧ 2 ^ 16 ≤ (65536#24).toNat ∧
      ¬2 ^ 16 ≤ (65535#24).toNat := ⟨Nat.two_pow_pos _, one_lt_width, by decide, by decide⟩
theorem witness_GetremReturnsRemaining :
    (running 1 .low true).cd.rem.toNat < 2 ^ Config.wRem ∧ Config.wRem ≤ Config.wRem := ⟨one_lt_width, Nat.le_refl _⟩
/-- For each opcode a word that its statement's last clause speaks of. -/
theorem witness_reserved_bits :
    [0x10000001#32, 0x30000001#32, 0x60000001#32, 0x70000001#32, 0x80000001#32, 0xA0000020#32].map
        (fun w => (w.extractLsb' 28 4).toNat) = [0x1, 0x3, 0x6, 0x7, 0x8, 0xA] ∧
      ((0x20000001#32).extractLsb' 28 4 = 0x2#4 ∧ 0x20000001#32 &&& 0x0FE0C0FF#32 ≠ 0) ∧
      ((0x41000000#32).extractLsb' 28 4 = 0x4#4 ∧ 0x41000000#32 &&& 0x0F000000#32 ≠ 0) ∧
      ((0x50000004#32).extractLsb' 28 4 = 0x5#4 ∧ 0x50000004#32 &&& 0x0FFFFFFC#32 ≠ 0) ∧
      ((0x50000003#32).extractLsb' 0 2 = 3#2 ∧ (0x93000000#32).extractLsb' 24 2 = 3#2) ∧
      ((0x94000000#32).extractLsb' 28 4 = 0x9#4 ∧ 0x94000000#32 &&& 0x0C000000#32 ≠ 0) := by decide
theorem witness_ClockAdvanceCascades :
    (atClock 23 59 58).clk.s.toNat < 59 ∧ 59 ≤ (atClock 23 58 59).clk.s.toNat ∧ (atClock 23 58 59).clk.m.toNat < 59 ∧
      59 ≤ (atClock 22 59 59).clk.m.toNat ∧ (atClock 22 59 59).clk.h.toNat < 23 ∧
      23 ≤ (atClock 23 59 59).clk.h.toNat := by decide
theorem witness_ClockAdvancesOneSecond : (atClock 23 59 59).clk.Legal := ⟨by decide, by decide, by decide⟩
theorem witness_TickAdvancesBothParts :
    (State.reset.cd.active = false ∧ (running 0 .low true).cd.rem = 0) ∧
      ((running 1 .low true).cd.active = true ∧ (running 1 .low true).cd.rem = 1) ∧
      2 ≤ (running 2 .low true).cd.rem.toNat := by decide
theorem witness_TicksAdvanceClock :
    (atClock 23 59 59).NoFault ∧ (atClock 23 59 59).clk.Legal ∧ 86400 % 86400 = 0 :=
  ⟨rfl, witness_ClockAdvancesOneSecond, by decide⟩
theorem witness_TicksCountDown :
    (running 2 .low true).NoFault ∧ (running 2 .low true).cd.active = true ∧ 1 ≤ (running 2 .low true).cd.rem.toNat ∧
      1 < (running 2 .low true).cd.rem.toNat ∧ (running 2 .low true).cd.rem.toNat ≤ 2 :=
  ⟨rfl, by decide, by decide, by decide, by decide⟩
theorem witness_TicksLeaveOtherStates :
    (expired .low).NoFault ∧ (expired .low).cd.active = false ∧ (running 0 .low true).NoFault ∧
      (running 0 .low true).cd.rem = 0 := ⟨rfl, rfl, rfl, rfl⟩
theorem witness_TicksRunSafely : State.reset.NoFault := rfl
theorem witness_StepKeepsInvariant :
    (arriving (running 1 .low true) [.tick 0xF0000000#32]).Inv ∧
      step (arriving (running 1 .low true) [.tick 0xF0000000#32]) =
        .next { expired .low with clk := { h := 0, m := 1, s := 1 } } := by
  have h := running_inv .low true
  exact ⟨⟨h.clock, h.rem, h.flags, h.plate, h.heat, h.fault⟩, rfl⟩
theorem witness_StepCompletes :
    (∀ rest, (arriving State.reset [.cmd 0]).arrivals ≠ .narrowWrite :: rest) ∧
      (arriving State.reset [.narrowWrite]).arrivals = .narrowWrite :: [] := by simp [arriving]
/-- Each way a word can come next, once with a word that decodes, once with one that does not. -/
theorem witness_StepRunsDecodedCommand_words :
    State.reset.NoFault ∧ decode .cmd 0x60000000#32 = .ok .stop ∧ decode .cmd 0 = .error .reservedOpcode ∧
      decode .tick 0xF0000000#32 = .ok .tick ∧ decode .tick 0x10000000#32 = .error .otherOnTick :=
  ⟨rfl, by decide, by decide, by decide, by decide⟩
theorem witness_StepRunsDecodedCommand_cmd (w : Word) :
    (arriving State.reset [.cmd w]).NextWord .cmd w State.reset := .cmd (rest := []) rfl rfl
theorem witness_StepRunsDecodedCommand_tick (w : Word) :
    (arriving State.reset [.tick w]).NextWord .tick w State.reset := .tick (rest := []) rfl rfl
theorem witness_StepRunsDecodedCommand_tickDuringCmd (w v : Word) :
    (arriving State.reset [.tickDuringCmd w v]).NextWord .cmd w { State.reset with pendingTick := some v } :=
  .tickDuringCmd (rest := []) rfl rfl
theorem witness_StepRunsDecodedCommand_pendingTick (w : Word) :
    { State.reset with pendingTick := some w, arrivals := [.cmd 0] }.NextWord .tick w
      (arriving State.reset [.cmd 0]) := .pendingTick rfl (by simp) (by simp)
/-- Its form of a bus write, whichever the order of the bus: `DUTY HIGH, 144`, and a word of zeros. -/
theorem witness_StepRunsDecodedCommand_busWrite :
    (∀ b0 b1 b2 b3, (arriving State.reset [.busWrite b0 b1 b2 b3]).NextWord .cmd
        (wordOfBus Config.busEndian b0 b1 b2 b3) State.reset) ∧
      decode .cmd (wordOfBus Config.busEndian 0x90 0 0 0x90) = .ok (.duty 0 0x90) ∧
      decode .cmd (wordOfBus Config.busEndian 0 0 0 0) = .error .reservedOpcode := by
  refine ⟨fun _ _ _ _ => .busWrite (rest := []) rfl rfl, ?_⟩
  cases Config.busEndian <;> decide
theorem witness_PlacedWordRunsNext : State.reset.NoFault ∧ (Instr.start 2).wellFormed = true := ⟨rfl, by decide⟩
theorem witness_PendingTickTakenNext :
    (∃ t, step (arriving State.reset [.tickDuringCmd 0x60000000#32 (encode .tick)]) = .next t) ∧
      { State.reset with pendingTick := some (encode .tick) }.NoFault ∧
      (∃ t, step { State.reset with pendingTick := some (encode .tick), arrivals := [.reset false] } = .next t) :=
  ⟨⟨_, rfl⟩, rfl, ⟨_, rfl⟩⟩
theorem witness_SimultaneousEitherOrder :
    State.reset.NoFault ∧ State.reset.pendingTick = none ∧
      (arriving State.reset [.simultaneous 0x60000000#32 0xF0000000#32]).arrivals =
        .simultaneous 0x60000000#32 0xF0000000#32 :: [] := ⟨rfl, rfl, rfl⟩
theorem witness_NoTornRead :
    (arriving (atClock 0 59 59) [.simultaneous (encode .gettime) (encode .tick)]).NoFault ∧
      (arriving (atClock 0 59 59) [.simultaneous (encode .gettime) (encode .tick)]).arrivals =
        .simultaneous (encode .gettime) (encode .tick) :: [] := ⟨rfl, rfl⟩
theorem witness_CommandsIdempotent :
    Instr.stop ≠ .tick ∧ exec .stop (running 1 .low true) =
      .next { running 1 .low true with
        cd := { rem := 1, active := false, complete := false }, out := { heat := false, plate := false } } :=
  ⟨by decide, rfl⟩
/-- Each kind of change that OnlyWritersChangeRegisters speaks of happens. -/
theorem witness_OnlyWritersChangeRegisters :
    seen (fun t => decide (t.clk.s ≠ 0 ∧ t.cd.rem ≠ 1 ∧ t.cd.active ≠ true ∧ t.cd.complete ≠ false ∧
        t.out.heat ≠ true ∧ t.out.plate ≠ true)) (exec .tick (running 1 .low true)) = some true ∧
      seen (fun t => decide (t.mode ≠ .high)) (exec (.start 1) State.reset) = some true ∧
      seen (fun t => decide (t.rsp ≠ none)) (exec .peek State.reset) = some true ∧
      seen (fun t => decide (t.fault ≠ State.reset.fault)) (exec (.settime 24 0) State.reset) = some true ∧
      seen (fun t => decide (t.fault ≠ State.reset.fault)) (exec (.duty 3 0) State.reset) = some true ∧
      seen (fun t => decide (t.clk ≠ State.reset.clk)) (exec (.settime 0 2) State.reset) = some true := by decide
theorem witness_CompleteSetOnlyAtExpiry :
    (running 1 .low true).cd.complete = false ∧
      seen (·.cd.complete) (step (arriving (running 1 .low true) [.tick 0xF0000000#32])) = some true := by decide
theorem witness_HeatTurnsOnOnlyInTick :
    (running 10 .low false).out.heat = false ∧
      seen (·.out.heat) (step (arriving (running 10 .low false) [.tick 0xF0000000#32])) = some true := by decide
theorem witness_ClockAndCountdownIndependent :
    exec .status State.reset = .next { State.reset with rsp := some 0 } := rfl
theorem witness_TransitionTable :
    (running 1 .low true).Inv ∧ fsmState (running 1 .low true).cd = .running ∧ State.reset.Inv ∧
      fsmState State.reset.cd = .idle ∧ fsmState (expired .low).cd = .expired ∧
      Instr.status ∈ [Instr.gettime, .getrem, .peek, .status, .duty PowerMode.high.code 0] :=
  ⟨running_inv _ _, rfl, reset_inv, rfl, rfl, by decide⟩

end Sys2Proof.Tests
end

section
/-! The clock family: `ClockAdvance` (R81), GETTIME (R82) and SETTIME (R83). -/

namespace Sys2Proof

/-! A field placed at bit `k` of a word, read back at its own place and at another. -/

theorem extractLsb'_placed {n k : Nat} (x : BitVec n) (h : k + n ≤ 32) :
    (x.setWidth 32 <<< k).extractLsb' k n = x := by
  ext j hj
  simp [show k + j < 32 by omega, BitVec.getLsbD_eq_getElem hj]

theorem extractLsb'_placed_of_disjoint {n k p m : Nat} (x : BitVec n) (h : k + n ≤ p ∨ p + m ≤ k) :
    (x.setWidth 32 <<< k).extractLsb' p m = 0#m := by
  ext j hj
  obtain hlow | hhigh := h
  · simp [BitVec.getLsbD_of_ge x (p + j - k) (by omega)]
  · simp [show p + j < k by omega]

/-! Words that fail their row's check (R72). -/

/-- The reserved-zero bits of a format lie below the opcode field. -/
theorem reserved_and_opcodeMask (f : Format) : f.reserved &&& 0xF0000000#32 = 0 := by
  cases f <;> decide

theorem decode_of_reserved_set {ch : Channel} {w : Word} {op : Opcode} (h : w.extractLsb' 28 4 = op.bits)
    (hr : w &&& op.format.reserved ≠ 0#32) : decode ch w = .error .reservedBit :=
  decode_reservedBit h ((mismatch_iff_reserved h rfl (reserved_and_opcodeMask op.format)).mpr hr)

/-- A row of format N has no operand bits: its mask keeps the whole word (R63). -/
theorem mask_of_formatN {op : Opcode} (hf : op.format = .n) : op.mask = BitVec.allOnes 32 := by
  rw [Opcode.mask, hf]; decide

theorem decode_of_formatN_ne {ch : Channel} {w : Word} {op : Opcode} (hf : op.format = .n)
    (h : w.extractLsb' 28 4 = op.bits) (hne : w ≠ op.pattern) : decode ch w = .error .reservedBit :=
  decode_reservedBit h (by rwa [mask_of_formatN hf, BitVec.and_allOnes])

namespace Machine

/-! The layout of GETTIME's response (R74). -/

section
variable (c : Clock)

/-- The seconds lie at bit 0. -/
theorem timeWord_eq_placed :
    timeWord c = c.h.setWidth 32 <<< 16 ||| c.m.setWidth 32 <<< 8 ||| c.s.setWidth 32 <<< 0 := by
  rw [timeWord, BitVec.shiftLeft_zero]

theorem timeWord_hours : (timeWord c).extractLsb' 16 5 = c.h := by
  rw [timeWord_eq_placed, BitVec.extractLsb'_or, BitVec.extractLsb'_or, extractLsb'_placed c.h (by decide),
    extractLsb'_placed_of_disjoint c.m (by decide), extractLsb'_placed_of_disjoint c.s (by decide),
    BitVec.or_zero, BitVec.or_zero]

theorem timeWord_minutes : (timeWord c).extractLsb' 8 6 = c.m := by
  rw [timeWord_eq_placed, BitVec.extractLsb'_or, BitVec.extractLsb'_or, extractLsb'_placed c.m (by decide),
    extractLsb'_placed_of_disjoint c.h (by decide), extractLsb'_placed_of_disjoint c.s (by decide),
    BitVec.or_zero, BitVec.zero_or]

theorem timeWord_seconds : (timeWord c).extractLsb' 0 6 = c.s := by
  rw [timeWord_eq_placed, BitVec.extractLsb'_or, BitVec.extractLsb'_or, extractLsb'_placed c.s (by decide),
    extractLsb'_placed_of_disjoint c.h (by decide), extractLsb'_placed_of_disjoint c.m (by decide),
    BitVec.or_zero, BitVec.zero_or]

/-- "Every bit not named below is 0" (R74): `0xFFE0C0C0` is the complement of the three fields. -/
theorem timeWord_zero_bits : timeWord c &&& 0xFFE0C0C0#32 = 0 := by
  have hours (x : BitVec 5) : x.setWidth 32 <<< 16 &&& 0xFFE0C0C0#32 = 0#32 := by revert x; decide
  have minutes (x : BitVec 6) : x.setWidth 32 <<< 8 &&& 0xFFE0C0C0#32 = 0#32 := by revert x; decide
  have seconds (x : BitVec 6) : x.setWidth 32 &&& 0xFFE0C0C0#32 = 0#32 := by revert x; decide
  rw [timeWord, Laws.or_and, Laws.or_and, hours, minutes, seconds]
  rfl

end

/-! What GETTIME and SETTIME answer. -/

theorem exec_gettime (s : State) : exec .gettime s = .next { s with rsp := some (timeWord s.clk) } := rfl

theorem exec_settime_of_inRange {hh : BitVec 5} {mm : BitVec 6} (s : State) (h : hh.toNat ≤ 23 ∧ mm.toNat ≤ 59) :
    exec (.settime hh mm) s = .next { s with clk := { h := hh, m := mm, s := s.clk.s }, rsp := none } :=
  if_pos ((timeInRange_iff hh mm).mpr h)

theorem exec_settime_of_outOfRange {hh : BitVec 5} {mm : BitVec 6} (s : State)
    (h : ¬(hh.toNat ≤ 23 ∧ mm.toNat ≤ 59)) :
    exec (.settime hh mm) s =
      .next { s with fault := { kind := .contractViolation, info := encode (.settime hh mm) }, rsp := none } :=
  if_neg (mt (timeInRange_iff hh mm).mp h)

/-! The obligations. -/

/-- Settles O25, branch by branch of the cascade: in each the moving field is below its bound, so adding one does not
wrap the register. -/
theorem clockAdvanceCascades : Obligations.ClockAdvanceCascades := by
  intro c
  obtain ⟨hs, e⟩ | ⟨hs, hm, e⟩ | ⟨hs, hm, hh, e⟩ | ⟨hs, hm, hh, e⟩ := c.advance_cases <;> rw [e]
  · have next_second : (c.s + 1).toNat = c.s.toNat + 1 := by bv_omega
    exact ⟨fun _ => ⟨next_second, rfl, rfl⟩, fun _ => by bv_omega⟩
  · have next_minute : (c.m + 1).toNat = c.m.toNat + 1 := by bv_omega
    exact ⟨fun _ => by bv_omega, fun _ => ⟨rfl, fun _ => ⟨next_minute, rfl⟩, fun _ => by bv_omega⟩⟩
  · have next_hour : (c.h + 1).toNat = c.h.toNat + 1 := by bv_omega
    exact ⟨fun _ => by bv_omega,
      fun _ => ⟨rfl, fun _ => by bv_omega, fun _ => ⟨rfl, fun _ => next_hour, fun _ => by bv_omega⟩⟩⟩
  · exact ⟨fun _ => by bv_omega,
      fun _ => ⟨rfl, fun _ => by bv_omega, fun _ => ⟨rfl, fun _ => by bv_omega, fun _ => rfl⟩⟩⟩

/-- Settles O14: the response is `timeWord` of the clock, whose layout the lemmas above give; GETTIME is of format N. -/
theorem gettimeReturnsClock : Obligations.GettimeReturnsClock := by
  refine ⟨row_gettime.1, fun s => ⟨timeWord s.clk, exec_gettime s, ?layout⟩, fun w h hne => ?rejected⟩
  case layout =>
    exact ⟨timeWord_hours s.clk, timeWord_minutes s.clk, timeWord_seconds s.clk, timeWord_zero_bits s.clk⟩
  case rejected =>
    exact decode_of_formatN_ne (op := .gettime) rfl h (by rwa [row_gettime.1])

/-- Settles O15: the range check of SETTIME decides between the overwrite and the fault. -/
theorem settimeOverwritesHoursMinutes : Obligations.SettimeOverwritesHoursMinutes := by
  refine ⟨fun hh mm => ?word, fun hh mm s hhh hmm => ?inRange, fun hh mm s hout => ?outOfRange,
    fun w h hr => ?rejected⟩
  case word => rw [← row_settime.1]; rfl
  case inRange => exact exec_settime_of_inRange s ⟨hhh, hmm⟩
  case outOfRange => exact exec_settime_of_outOfRange s (by omega)
  case rejected => exact decode_of_reserved_set (op := .settime) h hr

end Machine

end Sys2Proof
end

section
/-! The countdown's commands: SETREM (R87), GETREM (R88), START (R89), STOP (R90), ACK (R91), PEEK (R92) and
STATUS (R93). -/

namespace Sys2Proof

/-- A field placed above the bits of a word adds its number, scaled by the weight of its lowest bit. -/
theorem toNat_or_placed {n k : Nat} (low : Word) (x : BitVec n) (hk : k + n ≤ 32) (hlow : low.toNat < 2 ^ k) :
    (low ||| x.setWidth 32 <<< k).toNat = low.toNat + 2 ^ k * x.toNat := by
  have fits : 2 ^ k * x.toNat < 2 ^ 32 :=
    calc 2 ^ k * x.toNat < 2 ^ k * 2 ^ n := Nat.mul_lt_mul_of_pos_left x.isLt (Nat.two_pow_pos k)
      _ = 2 ^ (k + n) := (Nat.pow_add 2 k n).symm
      _ ≤ 2 ^ 32 := Nat.pow_le_pow_right (by decide) hk
  have placed : (x.setWidth 32 <<< k).toNat = 2 ^ k * x.toNat := by
    rw [BitVec.toNat_shiftLeft, BitVec.toNat_setWidth_of_le (by omega), Nat.shiftLeft_eq, Nat.mul_comm,
      Nat.mod_eq_of_lt fits]
  rw [BitVec.toNat_or, placed, Nat.or_comm, ← Nat.two_pow_add_eq_or_of_lt hlow, Nat.add_comm]

/-- START with mode code 3 is no command, whatever its reserved bits hold (R73). -/
theorem decode_start_of_codeThree {w : Word} (h : w.extractLsb' 28 4 = Opcode.start.bits)
    (hmd : w.extractLsb' 0 2 = 3#2) : ∃ e, decode .cmd w = .error e := by
  by_cases hmatch : w &&& Opcode.start.mask = Opcode.start.pattern
  · have unnamed : ¬modeCodeNamed (modeFieldM w) = true := by rw [modeCodeNamed_iff]; exact not_not_intro hmd
    refine ⟨.modeCodeThree, ?_⟩
    rw [decode_of_opcode (op := .start) (by rw [opcodeField, h, opcodeOfBits_bits]), if_neg (not_not_intro hmatch),
      if_neg (by decide), if_neg (by decide)]
    exact if_neg unnamed
  · exact ⟨.reservedBit, decode_reservedBit h hmatch⟩

namespace Machine

/-! The layouts of the responses (R74). -/

theorem boolWord_eq_ite (b : Bool) : boolWord b = if b then 1 else 0 := by cases b <;> rfl

theorem boolWord_toNat (b : Bool) : (boolWord b).toNat = b.toNat := by cases b <;> rfl

theorem remWord_toNat (rem : BitVec 24) : (remWord rem).toNat = rem.toNat :=
  BitVec.toNat_setWidth_of_le (by decide)

/-- "Response bits 31 down to `W_REM` are 0" (R88), for a `cd.rem` of `width` bits. -/
theorem remWord_getLsbD_of_fits {width k : Nat} {rem : BitVec 24} (h : rem.toNat < 2 ^ width) (hk : width ≤ k) :
    (remWord rem).getLsbD k = false := by
  rw [← BitVec.testBit_toNat, remWord_toNat]
  exact Nat.testBit_lt_two_pow (h.trans_le (Nat.pow_le_pow_right (by decide) hk))

/-- STATUS's response from bit 0 up: each field is placed above all those before it. `bit<k>` is the value of the word's
part up to bit `k`. -/
theorem statusWord_toNat (cd : Countdown) (mode : PowerMode) (out : Outputs) :
    (statusWord cd mode out).toNat =
      cd.active.toNat + 2 * cd.complete.toNat + 4 * mode.code.toNat + 16 * out.heat.toNat + 32 * out.plate.toNat := by
  have := Bool.toNat_lt cd.active
  have := Bool.toNat_lt cd.complete
  have := Bool.toNat_lt out.heat
  have := mode.code.isLt
  have bit0 := boolWord_toNat cd.active
  have bit1 := toNat_or_placed (k := 1) (boolWord cd.active) (.ofBool cd.complete) (by decide) (by omega)
  rw [bit0, BitVec.toNat_ofBool] at bit1
  have bit3 := toNat_or_placed (k := 2) _ mode.code (by decide) (bit1.trans_lt (by omega))
  rw [bit1] at bit3
  have bit4 := toNat_or_placed (k := 4) _ (.ofBool out.heat) (by decide) (bit3.trans_lt (by omega))
  rw [bit3, BitVec.toNat_ofBool] at bit4
  have bit5 := toNat_or_placed (k := 5) _ (.ofBool out.plate) (by decide) (bit4.trans_lt (by omega))
  rw [bit4, BitVec.toNat_ofBool] at bit5
  exact bit5

/-! What each command answers. -/

section
variable (s : State)

theorem exec_setrem (sss : BitVec 24) : exec (.setrem sss) s = .next (s.setRemaining Config.wRem sss) := rfl

theorem setRemaining_of_fits {width : Nat} {sss : BitVec 24} (h : sss.toNat < 2 ^ width) :
    s.setRemaining width sss = { s with cd := { s.cd with rem := sss }, rsp := none } := by
  obtain ⟨_, e⟩ | ⟨h', _⟩ := setRemaining_cases width sss s
  · exact e
  · omega

theorem setRemaining_of_not_fits {width : Nat} {sss : BitVec 24} (h : 2 ^ width ≤ sss.toNat) :
    s.setRemaining width sss =
      { s with fault := { kind := .contractViolation, info := encode (.setrem sss) }, rsp := none } := by
  obtain ⟨h', _⟩ | ⟨_, e⟩ := setRemaining_cases width sss s
  · omega
  · exact e

theorem exec_getrem : exec .getrem s = .next { s with rsp := some (remWord s.cd.rem) } := rfl

/-- The mode's own code names it, so START takes its first branch. -/
theorem exec_start_code (m : PowerMode) :
    exec (.start m.code) s =
      .next { s with
        cd := { s.cd with active := true, complete := false }
        mode := m
        out := { s.out with plate := true }
        rsp := none } := by
  rw [exec, execStart, modeOf_code]; rfl

theorem exec_stop :
    exec .stop s =
      .next { s with cd := { s.cd with active := false }, out := { heat := false, plate := false }, rsp := none } :=
  rfl

theorem exec_ack : exec .ack s = .next { s with cd := { s.cd with complete := false }, rsp := none } := rfl

theorem exec_peek : exec .peek s = .next { s with rsp := some (if s.cd.complete then 1 else 0) } := by
  rw [← boolWord_eq_ite]; rfl

theorem exec_status : exec .status s = .next { s with rsp := some (statusWord s.cd s.mode s.out) } := rfl

end

/-! The obligations. The word of a command without operands is its row's match column. -/

/-- Settles O16: whether the value fits decides between the overwrite and the fault, at every width. -/
theorem setremOverwritesRemaining : Obligations.SetremOverwritesRemaining := by
  refine ⟨fun sss => ?word, fun sss s hfits => ?fits, fun _ _ s => setRemaining_of_not_fits s,
    fun sss s => exec_setrem s sss, fun w h hr => ?rejected⟩
  case word => rw [← row_setrem.1]; rfl
  case fits => rw [exec_setrem, setRemaining_of_fits s hfits]
  case rejected => exact decode_of_reserved_set (op := .setrem) h hr

/-- Settles O17: the response is `cd.rem` widened, so no bit of it lies above those of `cd.rem`. -/
theorem getremReturnsRemaining : Obligations.GetremReturnsRemaining := by
  refine ⟨row_getrem.1, fun s => ⟨remWord s.cd.rem, exec_getrem s, remWord_toNat _, fun hfits _ hk => ?highBits⟩,
    fun w h hne => ?rejected⟩
  case highBits => exact remWord_getLsbD_of_fits hfits hk
  case rejected => exact decode_of_formatN_ne (op := .getrem) rfl h (by rwa [row_getrem.1])

/-- Settles O18: a mode's code runs `exec_start_code`; a word is refused for a reserved bit or for mode code 3. -/
theorem startBeginsCycle : Obligations.StartBeginsCycle := by
  refine ⟨by decide, by decide, by decide, fun m s => exec_start_code s m, fun w h hbad => ?rejected⟩
  case rejected =>
    obtain hreserved | hcode := hbad
    · exact ⟨.reservedBit, decode_of_reserved_set (op := .start) h hreserved⟩
    · exact decode_start_of_codeThree h hcode

/-- Settles O19: the effect of STOP, and its rejected words by format N. -/
theorem stopForcesOutputsOff : Obligations.StopForcesOutputsOff :=
  ⟨row_stop.1, exec_stop, fun _ h hne => decode_of_formatN_ne (op := .stop) rfl h (by rwa [row_stop.1])⟩

/-- Settles O20: the effect of ACK, and its rejected words by format N. -/
theorem ackClearsComplete : Obligations.AckClearsComplete :=
  ⟨row_ack.1, exec_ack, fun _ h hne => decode_of_formatN_ne (op := .ack) rfl h (by rwa [row_ack.1])⟩

/-- Settles O21: the response of PEEK, and its rejected words by format N. -/
theorem peekReturnsComplete : Obligations.PeekReturnsComplete :=
  ⟨row_peek.1, exec_peek, fun _ h hne => decode_of_formatN_ne (op := .peek) rfl h (by rwa [row_peek.1])⟩

/-- Settles O22: the response is `statusWord`, whose value `statusWord_toNat` gives. -/
theorem statusReturnsFlags : Obligations.StatusReturnsFlags :=
  ⟨row_status.1, fun s => ⟨statusWord s.cd s.mode s.out, exec_status s, statusWord_toNat s.cd s.mode s.out⟩,
    fun _ h hne => decode_of_formatN_ne (op := .status) rfl h (by rwa [row_status.1])⟩

end Machine

end Sys2Proof
end

section
/-! The duty scheduler: the Duty Table (R31), `Decide` (R101) and DUTY (R103). -/

namespace Sys2Proof

/-- A word of a row whose operands are refused is no command, whichever of R70's checks refuses it first. -/
theorem decode_of_operands_refused {ch : Channel} {w : Word} {op : Opcode} {e : DecodeError}
    (h : opcodeField w = op.bits) (hrefused : assembleOperands op w = .error e) : ∃ e', decode ch w = .error e' := by
  cases hd : decode ch w with
  | error e' => exact ⟨e', rfl⟩
  | ok i =>
    obtain ⟨op', hop', -, -, hassembled⟩ := decode_ok hd
    obtain rfl : op = op' := by rwa [h, opcodeOfBits_bits, Option.some.injEq] at hop'
    rw [hrefused] at hassembled
    cases hassembled

/-- A DUTY of mode code 3 assembles to no command (R73). -/
theorem assembleOperands_duty_of_codeThree {w : Word} (hmd : modeFieldQ w = 3#2) :
    assembleOperands .duty w = .error .modeCodeThree :=
  if_neg fun hnamed => (modeCodeNamed_iff (modeFieldQ w)).mp hnamed hmd

namespace Machine

/-! The decision. -/

/-- A row of the Duty Table is on for an initial run of its positions (R31), read off position by position. -/
theorem dutyTable_iff (m : PowerMode) (p : Fin 10) : (dutyTable m)[p] = true ↔ p.val < onPositions m := by
  cases m with
  | high => revert p; decide
  | low => revert p; decide
  | defrost => revert p; decide

theorem decideHeating_iff (m : PowerMode) (r : Nat) : decideHeating m r = true ↔ 9 - r % 10 < onPositions m :=
  dutyTable_iff m (dutyPosition r)

/-! What DUTY answers. -/

/-- The query names the mode by its own code, so DUTY takes its first branch. -/
theorem exec_duty_code (m : PowerMode) (rrr : BitVec 24) (s : State) :
    exec (.duty m.code rrr) s = .next { s with rsp := some (boolWord (decideHeating m rrr.toNat)) } := by
  rw [exec, execDuty, modeOf_code]; rfl

/-! The obligations. -/

/-- Settles O23: the decision is the Duty Table's row, read at the position of `r`. -/
theorem decideByPosition : Obligations.DecideByPosition :=
  ⟨dutyTable_iff, decideHeating_iff⟩

/-- Settles O24: the response is the decision as a word; a word is refused for a reserved bit or for mode code 3. -/
theorem dutyReturnsDecision : Obligations.DutyReturnsDecision := by
  refine ⟨fun md rrr => ?word, fun m rrr s => ?response, fun w h hbad => ?rejected⟩
  case word => rw [← row_duty.1]; rfl
  case response => simp only [exec_duty_code, boolWord_eq_ite, decideHeating_iff]
  case rejected =>
    obtain hreserved | hcode := hbad
    · exact ⟨.reservedBit, decode_of_reserved_set (op := .duty) h hreserved⟩
    · exact decode_of_operands_refused (op := .duty) h (assembleOperands_duty_of_codeThree hcode)

end Machine

end Sys2Proof
end

section
/-! The tick family: the countdown's part of a TICK in each of its three situations (R94), and TICK itself (R111). -/

namespace Sys2Proof.Machine

/-- A countdown with a second left counts down without wrapping its register. -/
theorem rem_sub_one_toNat {rem : BitVec 24} (h : 1 ≤ rem.toNat) : (rem - 1).toNat = rem.toNat - 1 :=
  BitVec.toNat_sub_of_le (BitVec.le_def.mpr h)

section
variable {s : State}

/-! The countdown's part: the situations of `countdownTick_cases` exclude each other, so each fixes the result. -/

/-- Inactive, or of zero length (R96, R97). -/
theorem countdownTick_of_holding (h : s.cd.active = false ∨ s.cd.rem = 0) : s.countdownTick = s := by
  obtain ⟨-, e⟩ | ⟨ha, h1, -⟩ | ⟨ha, h2, -⟩ := countdownTick_cases s
  · exact e
  · simp [ha, h1] at h
  · have rem_zero : s.cd.rem = 0 := by simpa [ha] using h
    simp [rem_zero] at h2

theorem countdownTick_of_expiring (ha : s.cd.active = true) (h1 : s.cd.rem = 1) :
    s.countdownTick =
      { s with cd := { rem := 0, active := false, complete := true }, out := { heat := false, plate := false } } := by
  obtain ⟨h, -⟩ | ⟨-, -, e⟩ | ⟨-, h2, -⟩ := countdownTick_cases s
  · simp [ha, h1] at h
  · exact e
  · simp [h1] at h2

theorem countdownTick_of_counting (ha : s.cd.active = true) (h2 : 2 ≤ s.cd.rem.toNat) :
    s.countdownTick =
      { s with
        cd := { s.cd with rem := s.cd.rem - 1 }
        out := { s.out with heat := decideHeating s.mode (s.cd.rem.toNat - 1) } } := by
  obtain ⟨h, -⟩ | ⟨-, h1, -⟩ | ⟨-, -, e⟩ := countdownTick_cases s
  · have rem_zero : s.cd.rem = 0 := by simpa [ha] using h
    simp [rem_zero] at h2
  · simp [h1] at h2
  · rwa [rem_sub_one_toNat (by omega)] at e

end

section
variable (s : State)

/-- The countdown's part leaves the clock, the mode and the fault register to the rest of the block. -/
theorem countdownTick_frame :
    s.countdownTick.clk = s.clk ∧ s.countdownTick.mode = s.mode ∧ s.countdownTick.fault = s.fault := by
  obtain ⟨-, e⟩ | ⟨-, -, e⟩ | ⟨-, -, e⟩ := countdownTick_cases s <;> rw [e] <;> exact ⟨rfl, rfl, rfl⟩

/-! TICK: the clock's part, then the countdown's part, and no response. -/

theorem exec_tick : exec .tick s = .next s.clockAdvance.countdownTick.silent := rfl

theorem tick_sameInputs : s.SameInputs s.clockAdvance.countdownTick.silent := by
  obtain ⟨harrivals, hpending, hcount⟩ := exec_inputs (exec_tick s)
  exact ⟨harrivals, hpending, hcount⟩

end

/-! The obligation. -/

/-- Settles O27: the clock's part leaves the countdown's registers alone, so the countdown's part acts on the state after
it as on the state before it, and leaves the advanced clock alone in turn. -/
theorem tickAdvancesBothParts : Obligations.TickAdvancesBothParts := by
  refine ⟨row_tick.1, by decide, by decide, fun s => ?_⟩
  obtain ⟨hclk, hmode, hfault⟩ := countdownTick_frame s.clockAdvance
  refine ⟨s.clockAdvance.countdownTick.silent, exec_tick s, hclk, hmode, hfault, rfl, tick_sameInputs s,
    fun h => ?holding, fun ha h1 => ?expiring, fun ha h2 => ?counting⟩
  case holding =>
    rw [countdownTick_of_holding (s := s.clockAdvance) h]
    exact ⟨rfl, rfl⟩
  case expiring =>
    rw [countdownTick_of_expiring (s := s.clockAdvance) ha h1]
    exact ⟨rfl, rfl⟩
  case counting =>
    rw [countdownTick_of_counting (s := s.clockAdvance) ha h2]
    exact ⟨rem_sub_one_toNat (Nat.le_of_succ_le h2), ha, rfl, rfl⟩

end Sys2Proof.Machine
end

section
/-! The faults: which words raise ILLEGAL_COMMAND (R116) and CONTRACT_VIOLATION (R118), and what a fault stops
(R117). -/

namespace Sys2Proof

/-- A SETTIME or SETREM whose operand is outside the range its register has (R118). -/
def Instr.OutOfRange : Instr → Prop
  | .settime hh mm => 23 < hh.toNat ∨ 59 < mm.toNat
  | .setrem sss => 2 ^ Config.wRem ≤ sss.toNat
  | _ => False

section
variable {ch : Channel} {w : Word} {op : Opcode} {i : Instr}

/-! Decoding, as one condition per check of R70. -/

/-- A word that passes the checks of its row and its channel decodes as its operands assemble. -/
theorem decode_of_match (h : opcodeField w = op.bits) (hm : w &&& op.mask = op.pattern)
    (hch : op = .tick ↔ ch = .tick) : decode ch w = assembleOperands op w := by
  have not_tickOnCmd : ¬(op = .tick ∧ ch = .cmd) := by
    rintro ⟨ht, rfl⟩
    exact absurd (hch.mp ht) (by decide)
  have not_otherOnTick : ¬(op ≠ .tick ∧ ch = .tick) := fun ⟨hne, ht⟩ => hne (hch.mpr ht)
  rw [decode_of_opcode (op := op) (by rw [h, opcodeOfBits_bits]), if_neg (not_not_intro hm), if_neg not_tickOnCmd,
    if_neg not_otherOnTick]

/-- The words of row `op` that are commands. -/
theorem decode_ok_iff_of_opcode (h : opcodeField w = op.bits) :
    decode ch w = .ok i ↔
      w &&& op.format.reserved = 0#32 ∧ (op = .tick ↔ ch = .tick) ∧ assembleOperands op w = .ok i := by
  have match_iff : w &&& op.mask = op.pattern ↔ w &&& op.format.reserved = 0#32 :=
    not_iff_not.mp (mismatch_iff_reserved h rfl (reserved_and_opcodeMask op.format))
  rw [← match_iff]
  constructor
  · intro hd
    obtain ⟨op', hop', hrest⟩ := decode_ok hd
    obtain rfl : op = op' := by rwa [h, opcodeOfBits_bits, Option.some.injEq] at hop'
    exact hrest
  · rintro ⟨hm, hch, hassembled⟩
    rw [decode_of_match h hm hch, hassembled]

theorem decode_error_iff_not_ok : (∃ e, decode ch w = .error e) ↔ ¬∃ i, decode ch w = .ok i := by
  cases decode ch w <;> simp

/-- Assembling the operands fails for mode code 3 only (R73). -/
theorem assembleOperands_ok_iff :
    (∃ i, assembleOperands op w = .ok i) ↔
      ¬(op = .start ∧ modeFieldM w = 3#2) ∧ ¬(op = .duty ∧ modeFieldQ w = 3#2) := by
  cases op with
  | start => by_cases h : modeFieldM w = 3#2 <;> simp [assembleOperands, modeCodeNamed, h]
  | duty => by_cases h : modeFieldQ w = 3#2 <;> simp [assembleOperands, modeCodeNamed, h]
  | _ => simp [assembleOperands]

theorem wellFormed_of_assemble (h : assembleOperands op w = .ok i) : i.wellFormed = true := by
  cases op with
  | start =>
    simp only [assembleOperands] at h
    split at h
    · cases h; assumption
    · cases h
  | duty =>
    simp only [assembleOperands] at h
    split at h
    · cases h; assumption
    · cases h
  | _ => cases h; rfl

theorem wellFormed_of_decode (h : decode ch w = .ok i) : i.wellFormed = true := by
  obtain ⟨_, -, -, -, hassembled⟩ := decode_ok h
  exact wellFormed_of_assemble hassembled

/-! The word a SETTIME or SETREM was decoded from is the command's own word (log 13): outside the operand fields the row
fixes both, and the operand fields are read from the one and written to the other. -/

/-- Two words of one row agree on every field that the row's mask keeps whole. -/
theorem field_eq_of_match {a b m p : Word} {k n : Nat} (ha : a &&& m = p) (hb : b &&& m = p)
    (hf : m.extractLsb' k n = BitVec.allOnes n) : a.extractLsb' k n = b.extractLsb' k n :=
  (field_of_masked ha hf).trans (field_of_masked hb hf).symm

theorem encode_settime_of_match (hm : w &&& Opcode.settime.mask = Opcode.settime.pattern) :
    encode (.settime (hoursField w) (minutesField w)) = w := by
  have own : encode (.settime (hoursField w) (minutesField w)) &&& Opcode.settime.mask = Opcode.settime.pattern :=
    (Laws.selectsOwnRow (.settime _ _)).1
  exact eq_of_fieldsT (field_eq_of_match own hm (by decide)) (hoursField_encode _ _)
    (field_eq_of_match own hm (by decide)) (minutesField_encode _ _) (field_eq_of_match own hm (by decide))

theorem encode_setrem_of_match (hm : w &&& Opcode.setrem.mask = Opcode.setrem.pattern) :
    encode (.setrem (secondsField w)) = w := by
  have own : encode (.setrem (secondsField w)) &&& Opcode.setrem.mask = Opcode.setrem.pattern :=
    (Laws.selectsOwnRow (.setrem _)).1
  exact eq_of_fieldsR (field_eq_of_match own hm (by decide)) (secondsField_encode_setrem _)

theorem encode_of_decode_outOfRange (hd : decode ch w = .ok i) (hout : i.OutOfRange) : encode i = w := by
  obtain ⟨op, -, hm, -, hassembled⟩ := decode_ok hd
  obtain rfl := opcode_of_assemble hassembled
  cases i with
  | settime hh mm => cases hassembled; exact encode_settime_of_match hm
  | setrem sss => cases hassembled; exact encode_setrem_of_match hm
  | _ => exact hout.elim

end

namespace Machine

section
variable {ch : Channel} {w : Word} {op : Opcode}

/-! R116's list of words, row by row. -/

/-- The TICK word is the one word of its row without a reserved bit set. -/
theorem eq_tickWord_iff_of_opcode (h : w.extractLsb' 28 4 = op.bits) :
    w = 0xF0000000#32 ↔ op = .tick ∧ w &&& 0x0FFFFFFF#32 = 0#32 := by
  constructor
  · rintro rfl
    have tick_bits : opcodeOfBits op.bits = some .tick := by rw [← h]; decide
    exact ⟨by simpa using tick_bits, by decide⟩
  · rintro ⟨rfl, hr⟩
    exact eq_of_opcode_and_low h (by simpa using field_of_masked (k := 0) (n := 28) hr (by decide))

/-- R116's list for a word of row `op`: a reserved bit set, mode code 3, or the wrong channel. -/
theorem illegalWord_iff_of_opcode (h : w.extractLsb' 28 4 = op.bits) :
    IllegalWord ch w ↔
      w &&& op.format.reserved ≠ 0#32 ∨ (op = .start ∧ modeFieldM w = 3#2) ∨ (op = .duty ∧ modeFieldQ w = 3#2) ∨
        ¬(op = .tick ↔ ch = .tick) := by
  simp only [IllegalWord, ne_eq, eq_tickWord_iff_of_opcode h, h]
  cases op with
  | tick =>
    cases ch with
    | cmd => simp [Opcode.bits, Opcode.format, Format.reserved, ← imp_iff_not_or]
    | tick => simp [Opcode.bits, Opcode.format, Format.reserved]
  | start => simp [Opcode.bits, Opcode.format, Format.reserved, modeFieldM, or_assoc]
  | duty => simp [Opcode.bits, Opcode.format, Format.reserved, modeFieldQ, or_assoc]
  | _ => simp [Opcode.bits, Opcode.format, Format.reserved]

/-- R116's list and the decoder, which are written apart, refuse the same words. -/
theorem illegalWord_iff_decode_error : IllegalWord ch w ↔ ∃ e, decode ch w = .error e := by
  cases hop : opcodeOfBits (opcodeField w) with
  | none =>
    have listed : w.extractLsb' 28 4 ∈ [0x0#4, 0xB#4, 0xC#4, 0xD#4, 0xE#4] := by
      simpa [opcodeField] using (opcodeOfBits_none_iff _).mp hop
    exact iff_of_true (.inl listed) ⟨_, decode_of_reserved hop⟩
  | some op =>
    have h : opcodeField w = op.bits := bits_of_opcodeOfBits hop
    rw [decode_error_iff_not_ok, illegalWord_iff_of_opcode h]
    simp only [decode_ok_iff_of_opcode h, exists_and_left, assembleOperands_ok_iff]
    tauto

/-! R118's list of words. -/

/-- R118's list and the decoded commands name the same words: the two rows' fields are the commands' operands. -/
theorem outOfRangeWord_iff_decode :
    ch = .cmd ∧ OutOfRangeWord w ↔ ∃ i, decode ch w = .ok i ∧ i.OutOfRange := by
  constructor
  · rintro ⟨rfl, ⟨hm, hout⟩ | ⟨hm, hout⟩⟩
    · have hop : opcodeField w = Opcode.settime.bits := (field_of_masked hm (by decide)).trans (by decide)
      have hmatch : w &&& Opcode.settime.mask = Opcode.settime.pattern := by rwa [row_settime.1, row_settime.2]
      exact ⟨.settime (hoursField w) (minutesField w), decode_of_match hop hmatch (by decide), hout⟩
    · have hop : opcodeField w = Opcode.setrem.bits := (field_of_masked hm (by decide)).trans (by decide)
      have hmatch : w &&& Opcode.setrem.mask = Opcode.setrem.pattern := by rwa [row_setrem.1, row_setrem.2]
      exact ⟨.setrem (secondsField w), decode_of_match hop hmatch (by decide), hout⟩
  · rintro ⟨i, hd, hout⟩
    obtain ⟨op, -, hm, hch, hassembled⟩ := decode_ok hd
    obtain rfl := opcode_of_assemble hassembled
    have on_cmd : i.opcode ≠ .tick → ch = .cmd := by cases ch <;> simp [hch]
    cases i with
    | settime hh mm =>
      cases hassembled
      rw [Instr.opcode, row_settime.1, row_settime.2] at hm
      exact ⟨on_cmd (by simp [Instr.opcode]), .inl ⟨hm, hout⟩⟩
    | setrem sss =>
      cases hassembled
      rw [Instr.opcode, row_setrem.1, row_setrem.2] at hm
      exact ⟨on_cmd (by simp [Instr.opcode]), .inr ⟨hm, hout⟩⟩
    | _ => exact hout.elim

/-! What a word does to the fault register. -/

variable {i : Instr} {s t : State}

theorem exec_of_outOfRange (s : State) (h : i.OutOfRange) :
    exec i s = .next (s.raiseFault .contractViolation (encode i)) := by
  cases i with
  | settime hh mm =>
    simp only [Instr.OutOfRange] at h
    exact exec_settime_of_outOfRange s (by omega)
  | setrem sss => rw [exec_setrem, setRemaining_of_not_fits s h]; rfl
  | _ => exact h.elim

/-- No well-formed command within its range raises a fault. -/
theorem exec_fault_of_inRange (hwf : i.wellFormed = true) (hin : ¬i.OutOfRange) (h : exec i s = .next t) :
    t.fault = s.fault := by
  obtain ⟨v, rfl, -⟩ | ⟨_, _, -, -, -, rfl⟩ | ⟨_, _, rfl, hout, -⟩ | ⟨_, -, -, rfl⟩ | ⟨_, rfl, hout, -⟩ |
    ⟨_, -, rfl⟩ | ⟨hill, -, -⟩ | ⟨-, rfl⟩ | ⟨-, rfl⟩ | ⟨-, rfl⟩ := exec_cases h
  · rfl
  · rfl
  · exact absurd hout hin
  · rfl
  · exact absurd hout hin
  · rfl
  · exact absurd hwf (by simp [hill])
  · rfl
  · rfl
  · obtain ⟨-, -, hfault⟩ := countdownTick_frame s.clockAdvance
    exact hfault

theorem runWord_of_outOfRange (s : State) (hd : decode ch w = .ok i) (hout : i.OutOfRange) :
    s.runWord ch w = .next (s.raiseFault .contractViolation w) := by
  rw [runWord_ok hd, exec_of_outOfRange s hout, encode_of_decode_outOfRange hd hout]

/-- Everything a word can do to the fault register: it is no command, or a command out of its range, or the register
stays. -/
theorem runWord_cases (h : s.runWord ch w = .next t) :
    (∃ e, decode ch w = .error e) ∧ t = s.raiseFault .illegalCommand w ∨
      (∃ i, decode ch w = .ok i ∧ i.OutOfRange) ∧ t = s.raiseFault .contractViolation w ∨
      t.fault = s.fault := by
  cases hd : decode ch w with
  | error e =>
    rw [runWord_error hd] at h
    cases h
    exact .inl ⟨⟨e, rfl⟩, rfl⟩
  | ok i =>
    by_cases hout : i.OutOfRange
    · rw [runWord_of_outOfRange s hd hout] at h
      cases h
      exact .inr (.inl ⟨⟨i, rfl, hout⟩, rfl⟩)
    · rw [runWord_ok hd] at h
      exact .inr (.inr (exec_fault_of_inRange (wellFormed_of_decode hd) hout h))

/-! The stopped block and the reset. -/

/-- A stopped block's step discards what arrives, but for a reset. -/
theorem eq_discardArrival_of_stopped (hs : s.stopped = true) (hreset : ∀ ok rest, s.arrivals ≠ .reset ok :: rest)
    (h : step s = .next t) : t = s.discardArrival := by
  obtain ⟨ok, rest, ha, -⟩ | ⟨rest, -, hf⟩ | ⟨-, -, ⟨-, hf⟩ | ⟨_, hrunning, -⟩ | ⟨hrunning, -⟩⟩ := fetch_cases s
  · exact absurd ha (hreset ok rest)
  · simp [step, hf] at h
  · simp only [step, hf] at h
    cases h
    rfl
  · simp [hs] at hrunning
  · simp [hs] at hrunning

theorem discardArrival_eq_self_or_silent (s : State) : s.discardArrival = s ∨ s.discardArrival.rsp = none := by
  unfold State.discardArrival
  split <;> simp

theorem step_of_reset {ok : Bool} {rest : List Arrival} (h : s.arrivals = .reset ok :: rest) :
    step s = .next ({ s with arrivals := rest }.resetBlock ok) := by
  simp [step, State.fetch, h]

end

/-! The obligations. -/

/-- Settles O8: ILLEGAL_COMMAND is recorded for the words that do not decode, and those are R116's. -/
theorem illegalCommandExactly : Obligations.IllegalCommandExactly := by
  intro s ch w hs
  rw [illegalWord_iff_decode_error]
  constructor
  · rintro ⟨t, hrun, hfault⟩
    obtain ⟨herror, -⟩ | ⟨-, rfl⟩ | hkept := runWord_cases hrun
    · exact herror
    · simp at hfault
    · simp [State.NoFault, ← hkept, hfault] at hs
  · rintro ⟨e, hd⟩
    exact ⟨_, runWord_error hd, rfl⟩

/-- Settles O9: CONTRACT_VIOLATION is recorded for the commands out of their range, and their words are R118's. -/
theorem contractViolationExactly : Obligations.ContractViolationExactly := by
  intro s ch w hs
  rw [outOfRangeWord_iff_decode]
  constructor
  · rintro ⟨t, hrun, hfault⟩
    obtain ⟨-, rfl⟩ | ⟨hout, -⟩ | hkept := runWord_cases hrun
    · simp at hfault
    · exact hout
    · simp [State.NoFault, ← hkept, hfault] at hs
  · rintro ⟨i, hd, hout⟩
    exact ⟨_, runWord_of_outOfRange s hd hout, rfl⟩

/-- Settles O10: a faulting word ends in `raiseFault`, a stopped block's step is `discardArrival`, and a reset whose
check passes is `resetBlock true`. -/
theorem faultStopsBlock : Obligations.FaultStopsBlock := by
  refine ⟨fun s t ch w hs hrun hfaulted => ?faulting, fun s t hstopped hstep hreset => ?stopped,
    fun s rest ha => ⟨_, step_of_reset ha, rfl⟩⟩
  case faulting =>
    obtain ⟨-, rfl⟩ | ⟨-, rfl⟩ | hkept := runWord_cases hrun
    · exact ⟨⟨rfl, rfl, rfl, rfl⟩, rfl, rfl, .inl rfl⟩
    · exact ⟨⟨rfl, rfl, rfl, rfl⟩, rfl, rfl, .inr rfl⟩
    · have no_fault : t.NoFault := (congrArg FaultRegister.kind hkept).trans hs
      exact absurd no_fault hfaulted
  case stopped =>
    obtain rfl := eq_discardArrival_of_stopped ((stopped_iff s).mpr hstopped) hreset hstep
    obtain ⟨hclk, hcd, hmode, hout, hfault, -⟩ := discardArrival_frame s
    exact ⟨⟨hclk, hcd, hmode, hout⟩, hfault, discardArrival_eq_self_or_silent s⟩

end Machine

end Sys2Proof
end

section
/-! The reset sequence (R135). -/

namespace Sys2Proof.Machine

/-- Settles O13: a reset that arrives is taken before anything else (R134), and the step is `resetBlock`, whose fields
are the reset values whatever the state before. -/
theorem resetSequence : Obligations.ResetSequence := by
  intro s ok rest ha
  have hmode : ({ s with arrivals := rest }.resetBlock ok).mode.code = 0 := by
    rw [resetBlock_mode]
    rfl
  exact ⟨_, step_of_reset ha, resetBlock_clk _ ok, resetBlock_cd _ ok, hmode, resetBlock_out _ ok,
    resetBlock_fault _ ok⟩

end Sys2Proof.Machine
end

section
/-! The encoding: decoding and encoding are inverse (R70, R72, R76), the rows of the opcode map (R69), the words that
R64, R47 and R77 speak of. -/

namespace Sys2Proof

section
variable {ch : Channel} {w : Word} {op : Opcode} {i : Instr}

/-! The rows of the opcode map. -/

/-- A mask keeps the opcode field whole, so a row's words carry its opcode. -/
theorem opcodeField_of_match (h : w &&& op.mask = op.pattern) : opcodeField w = op.bits := by
  have kept : op.mask.extractLsb' 28 4 = BitVec.allOnes 4 := by cases op <;> decide
  have named : op.pattern.extractLsb' 28 4 = op.bits := by cases op <;> decide
  exact (field_of_masked h kept).trans named

theorem bits_injective {p q : Opcode} (h : p.bits = q.bits) : p = q := by
  have same : opcodeOfBits p.bits = opcodeOfBits q.bits := congrArg opcodeOfBits h
  simpa using same

/-- The one word of a row of format N is its match column (R63). -/
theorem eq_pattern_of_formatN (hf : op.format = .n) (h : w &&& op.mask = op.pattern) : w = op.pattern := by
  rwa [mask_of_formatN hf, BitVec.and_allOnes] at h

/-! The word of a command. -/

theorem assembleOperands_encode (hwf : i.wellFormed = true) : assembleOperands i.opcode (encode i) = .ok i := by
  cases i with
  | settime hh mm => simp only [Instr.opcode, assembleOperands, hoursField_encode, minutesField_encode]
  | setrem sss => simp only [Instr.opcode, assembleOperands, secondsField_encode_setrem]
  | start md =>
    have named : modeCodeNamed md = true := hwf
    simp only [Instr.opcode, assembleOperands, modeFieldM_encode, named, if_true]
  | duty md rrr =>
    have named : modeCodeNamed md = true := hwf
    simp only [Instr.opcode, assembleOperands, modeFieldQ_encode, secondsField_encode_duty, named, if_true]
  | _ => rfl

theorem decode_encode (hwf : i.wellFormed = true) : decode i.channel (encode i) = .ok i := by
  obtain ⟨hmatch, hopcode⟩ := Laws.selectsOwnRow i
  rw [decode_of_match hopcode hmatch (channel_eq_tick_iff i).symm, assembleOperands_encode hwf]

theorem encode_start_of_match (hm : w &&& Opcode.start.mask = Opcode.start.pattern) :
    encode (.start (modeFieldM w)) = w := by
  have own : encode (.start (modeFieldM w)) &&& Opcode.start.mask = Opcode.start.pattern :=
    (Laws.selectsOwnRow (.start _)).1
  exact eq_of_fieldsM (field_eq_of_match own hm (by decide)) (modeFieldM_encode _)

theorem encode_duty_of_match (hm : w &&& Opcode.duty.mask = Opcode.duty.pattern) :
    encode (.duty (modeFieldQ w) (secondsField w)) = w := by
  have own : encode (.duty (modeFieldQ w) (secondsField w)) &&& Opcode.duty.mask = Opcode.duty.pattern :=
    (Laws.selectsOwnRow (.duty _ _)).1
  exact eq_of_fieldsQ (field_eq_of_match own hm (by decide)) (modeFieldQ_encode _ _) (secondsField_encode_duty _ _)

/-- Outside the operand fields the row fixes the word, and the operand fields are read from it and written back; a
command without operands has the one word of its row. -/
theorem encode_of_assemble (hm : w &&& op.mask = op.pattern) (h : assembleOperands op w = .ok i) : encode i = w := by
  obtain rfl := opcode_of_assemble h
  cases i with
  | settime hh mm => cases h; exact encode_settime_of_match hm
  | setrem sss => cases h; exact encode_setrem_of_match hm
  | start md =>
    simp only [Instr.opcode, assembleOperands] at h
    split at h
    · cases h; exact encode_start_of_match hm
    · cases h
  | duty md rrr =>
    simp only [Instr.opcode, assembleOperands] at h
    split at h
    · cases h; exact encode_duty_of_match hm
    · cases h
  | _ => exact (eq_pattern_of_formatN rfl hm).symm

theorem channel_of_decode (h : decode ch w = .ok i) : i.channel = ch := by
  obtain ⟨op, -, -, hch, hassembled⟩ := decode_ok h
  obtain rfl := opcode_of_assemble hassembled
  have tick_iff : i.channel = .tick ↔ ch = .tick := (channel_eq_tick_iff i).trans hch
  cases ch with
  | tick => exact tick_iff.mpr rfl
  | cmd =>
    cases hi : i.channel with
    | cmd => rfl
    | tick => exact absurd (tick_iff.mp hi) (by decide)

theorem encode_of_decode (h : decode ch w = .ok i) : encode i = w := by
  obtain ⟨_, -, hmatch, -, hassembled⟩ := decode_ok h
  exact encode_of_assemble hmatch hassembled

end

/-! The obligations. -/

/-- Settles O2: the word lies in the command's own row, and the fields the decoder reads are those the encoder wrote. -/
theorem decodeOfEncode : Obligations.DecodeOfEncode := fun _ hwf => decode_encode hwf

/-- Settles O3: the row and the channel are checked by the decoder, and `encode_of_assemble` rebuilds the word. -/
theorem encodeOfDecode : Obligations.EncodeOfDecode :=
  fun _ _ _ h => ⟨wellFormed_of_decode h, channel_of_decode h, encode_of_decode h⟩

/-- Settles O4: two rows that select one word name its opcode field. -/
theorem opcodeRowsDisjoint : Obligations.OpcodeRowsDisjoint :=
  fun _ _ _ hp hq => bits_injective ((opcodeField_of_match hp).symm.trans (opcodeField_of_match hq))

/-- Settles O1: each of the words is the word of its command. -/
theorem specWordsDecode : Obligations.SpecWordsDecode :=
  ⟨decode_encode (i := .gettime) rfl, decode_encode (i := .settime 23 59) rfl, decode_encode (i := .setrem 12) rfl,
    decode_encode (i := .start 1) rfl, decode_encode (i := .stop) rfl, decode_encode (i := .duty 2 29) rfl,
    decode_encode (i := .tick) rfl⟩

namespace Machine

/-- Clearing the seconds of a clock's word leaves its hours and minutes. -/
theorem timeWord_without_seconds (c : Clock) :
    timeWord c &&& 0xFFFFFFC0#32 = c.h.setWidth 32 <<< 16 ||| c.m.setWidth 32 <<< 8 := by
  have hours (x : BitVec 5) : x.setWidth 32 <<< 16 &&& 0xFFFFFFC0#32 = x.setWidth 32 <<< 16 := by revert x; decide
  have minutes (x : BitVec 6) : x.setWidth 32 <<< 8 &&& 0xFFFFFFC0#32 = x.setWidth 32 <<< 8 := by revert x; decide
  have seconds (x : BitVec 6) : x.setWidth 32 &&& 0xFFFFFFC0#32 = 0#32 := by revert x; decide
  rw [timeWord, Laws.or_and, Laws.or_and, hours, minutes, seconds, BitVec.or_zero]

/-- Settles O5: GETTIME and SETTIME lay hours and minutes out alike. -/
theorem gettimeResponseMakesSettime : Obligations.GettimeResponseMakesSettime := by
  intro s t v h hv
  rw [exec_gettime] at h
  cases h
  cases hv
  have opcode_bits : (0x20000000#32) = Opcode.settime.bits.setWidth 32 <<< 28 := by decide
  rw [timeWord_without_seconds, opcode_bits, BitVec.or_comm, ← BitVec.or_assoc]
  rfl

/-- Settles O6: in either order the four bytes are appended from the highest to the lowest, and neighbouring fields of
a word append to the field they make up. -/
theorem busBytesMakeWord : Obligations.BusBytesMakeWord := by
  intro e w
  have bytes : w.extractLsb' 24 8 ++ w.extractLsb' 16 8 ++ w.extractLsb' 8 8 ++ w.extractLsb' 0 8 = w := by
    rw [BitVec.extractLsb'_append_extractLsb'_eq_extractLsb' (by decide),
      BitVec.extractLsb'_append_extractLsb'_eq_extractLsb' (by decide),
      BitVec.extractLsb'_append_extractLsb'_eq_extractLsb' (by decide)]
    exact BitVec.extractLsb'_eq_self
  cases e with
  | little => exact bytes
  | big => exact bytes

end Machine

end Sys2Proof
end

section
/-! The assembler at the level of a read line (R77, R78). -/

namespace Sys2Proof.Machine

/-- A mode's name in capitals (R77). -/
def modeCapitals : PowerMode → List Char
  | .high => ['H', 'I', 'G', 'H']
  | .low => ['L', 'O', 'W']
  | .defrost => ['D', 'E', 'F', 'R', 'O', 'S', 'T']

theorem modeCapitals_injective {m n : PowerMode} (h : modeCapitals m = modeCapitals n) : m = n := by
  revert h; cases m <;> cases n <;> decide

/-- A name is a mode's when its capitals are; the three tests of `modeOfName` exclude each other. -/
theorem modeOfName_eq_some_iff (name : List Char) (m : PowerMode) :
    modeOfName name = some m ↔ name.map Char.toUpper = modeCapitals m := by
  have names (n : PowerMode) (hn : name.map Char.toUpper = modeCapitals n) :
      some n = some m ↔ name.map Char.toUpper = modeCapitals m := by
    rw [hn, Option.some.injEq]
    exact ⟨congrArg modeCapitals, modeCapitals_injective⟩
  unfold modeOfName
  split
  next h => exact names .high h
  next hhigh =>
    split
    next h => exact names .low h
    next hlow =>
      split
      next h => exact names .defrost h
      next hdefrost =>
        refine iff_of_false (Option.some_ne_none m).symm ?_
        cases m with
        | high => exact hhigh
        | low => exact hlow
        | defrost => exact hdefrost

/-! The operands, each refused where it does not fit its field. -/

theorem assembleSetrem_eq (n : Nat) :
    assembleSetrem n = if 2 ^ 24 ≤ n then none else some (.setrem (BitVec.ofNat 24 n)) := by
  by_cases h : 2 ^ 24 ≤ n
  · rw [if_pos h, assembleSetrem, if_neg (by omega)]
  · rw [if_neg h, assembleSetrem, if_pos (by omega)]

theorem assembleStart_of_some {name : List Char} {m : PowerMode} (h : modeOfName name = some m) :
    assembleStart name = some (.start m.code) := by
  rw [assembleStart, h]; rfl

theorem assembleStart_of_none {name : List Char} (h : modeOfName name = none) : assembleStart name = none := by
  rw [assembleStart, h]; rfl

section
variable (n : Nat) {name : List Char} {m : PowerMode}

theorem assemble_settime (hh mm : Nat) :
    (AsmLine.settime hh mm).assemble =
      if 31 < hh ∨ 63 < mm then none else some [.settime (BitVec.ofNat 5 hh) (BitVec.ofNat 6 mm)] := by
  by_cases h : 31 < hh ∨ 63 < mm
  · rw [if_pos h, AsmLine.assemble, if_neg (by omega)]
  · rw [if_neg h, AsmLine.assemble, if_pos (by omega)]

theorem assemble_setrem :
    (AsmLine.setrem n).assemble = if 2 ^ 24 ≤ n then none else some [.setrem (BitVec.ofNat 24 n)] := by
  rw [AsmLine.assemble, assembleSetrem_eq]
  split <;> rfl

theorem assemble_start_of_some (h : modeOfName name = some m) :
    (AsmLine.start name).assemble = some [.start m.code] := by
  rw [AsmLine.assemble, assembleStart_of_some h]; rfl

theorem assemble_start_of_none (h : modeOfName name = none) : (AsmLine.start name).assemble = none := by
  rw [AsmLine.assemble, assembleStart_of_none h]; rfl

theorem assemble_duty_of_some (h : modeOfName name = some m) :
    (AsmLine.duty name n).assemble = if 2 ^ 24 ≤ n then none else some [.duty m.code (BitVec.ofNat 24 n)] := by
  by_cases hn : 2 ^ 24 ≤ n
  · rw [if_pos hn, AsmLine.assemble, if_neg (by omega)]
  · rw [if_neg hn, AsmLine.assemble, if_pos (by omega), h]; rfl

theorem assemble_duty_of_none (h : modeOfName name = none) : (AsmLine.duty name n).assemble = none := by
  rw [AsmLine.assemble, h]
  split <;> rfl

/-- COOK is SETREM and then START, refused when either is (R78). -/
theorem assemble_cook_of_some (h : modeOfName name = some m) :
    (AsmLine.cook n name).assemble =
      if 2 ^ 24 ≤ n then none else some [.setrem (BitVec.ofNat 24 n), .start m.code] := by
  rw [AsmLine.assemble, assembleStart_of_some h, assembleSetrem_eq]
  by_cases hn : 2 ^ 24 ≤ n
  · rw [if_pos hn, if_pos hn]
  · rw [if_neg hn, if_neg hn]

theorem assemble_cook_of_none (h : modeOfName name = none) : (AsmLine.cook n name).assemble = none := by
  rw [AsmLine.assemble, assembleStart_of_none h]
  cases assembleSetrem n <;> rfl

end

/-- Settles O7, form by form. -/
theorem assemblerForms : Obligations.AssemblerForms := by
  refine ⟨fun name => ⟨modeOfName_eq_some_iff name .high, modeOfName_eq_some_iff name .low,
      modeOfName_eq_some_iff name .defrost⟩, ?codes, ?noOperand, assemble_settime, assemble_setrem,
    fun _ _ => assemble_start_of_some, fun _ h => ?unknownMode, fun _ _ n h => ?knownMode, rfl⟩
  case codes => exact ⟨rfl, rfl, rfl⟩
  case noOperand => exact ⟨rfl, rfl, rfl, rfl, rfl, rfl, rfl, fun _ => rfl⟩
  case unknownMode =>
    exact ⟨assemble_start_of_none h, fun n => assemble_duty_of_none n h, fun n => assemble_cook_of_none n h⟩
  case knownMode => exact ⟨assemble_duty_of_some n h, assemble_cook_of_some n h⟩

end Sys2Proof.Machine
end

section
/-! The tick as a function of the state, and the clock's second of the day (R80, R112). -/

namespace Sys2Proof.Machine

/-- The state a TICK leaves; `exec_tick_eq_ticked` ties it to the model. -/
def State.ticked (s : State) : State := s.clockAdvance.countdownTick.silent

section
variable (s : State)

theorem exec_tick_eq_ticked : exec .tick s = .next s.ticked := rfl

@[simp] theorem ticked_clk : s.ticked.clk = s.clk.advance := (countdownTick_frame s.clockAdvance).1
@[simp] theorem ticked_mode : s.ticked.mode = s.mode := (countdownTick_frame s.clockAdvance).2.1
@[simp] theorem ticked_fault : s.ticked.fault = s.fault := (countdownTick_frame s.clockAdvance).2.2
@[simp] theorem ticked_rsp : s.ticked.rsp = none := rfl
@[simp] theorem ticked_arrivals : s.ticked.arrivals = s.arrivals := (tick_sameInputs s).arrivals
@[simp] theorem ticked_pendingTick : s.ticked.pendingTick = s.pendingTick := (tick_sameInputs s).pendingTick
@[simp] theorem ticked_simulCount : s.ticked.simulCount = s.simulCount := (tick_sameInputs s).simulCount

theorem ticked_noFault {s : State} (h : s.NoFault) : s.ticked.NoFault := by
  rwa [State.NoFault, ticked_fault]

end

/-! The countdown's registers after a TICK, in its three situations (R94). -/

section
variable {s : State}

theorem ticked_of_holding (h : s.cd.active = false ∨ s.cd.rem = 0) :
    s.ticked.cd = s.cd ∧ s.ticked.out = s.out := by
  rw [State.ticked, countdownTick_of_holding (s := s.clockAdvance) h]
  exact ⟨rfl, rfl⟩

theorem ticked_of_expiring (ha : s.cd.active = true) (h1 : s.cd.rem = 1) :
    s.ticked.cd = { rem := 0, active := false, complete := true } ∧
      s.ticked.out = { heat := false, plate := false } := by
  rw [State.ticked, countdownTick_of_expiring (s := s.clockAdvance) ha h1]
  exact ⟨rfl, rfl⟩

theorem ticked_of_counting (ha : s.cd.active = true) (h2 : 2 ≤ s.cd.rem.toNat) :
    s.ticked.cd = { s.cd with rem := s.cd.rem - 1 } ∧
      s.ticked.out = { s.out with heat := decideHeating s.mode (s.cd.rem.toNat - 1) } := by
  rw [State.ticked, countdownTick_of_counting (s := s.clockAdvance) ha h2]
  exact ⟨rfl, rfl⟩

/-- Every countdown is in one of the three situations. -/
theorem countdown_situations (s : State) :
    (s.cd.active = false ∨ s.cd.rem = 0) ∨ (s.cd.active = true ∧ s.cd.rem = 1) ∨
      (s.cd.active = true ∧ 2 ≤ s.cd.rem.toNat) := by
  obtain ⟨h, -⟩ | ⟨ha, h1, -⟩ | ⟨ha, h2, -⟩ := countdownTick_cases s
  · exact .inl h
  · exact .inr (.inl ⟨ha, h1⟩)
  · exact .inr (.inr ⟨ha, h2⟩)

end

/-! The countdown's part of a TICK reads the countdown, the mode and the outputs, and writes the first and the last. -/

section
variable {s t : State}

theorem countdownTick_congr (hcd : t.cd = s.cd) (hmode : t.mode = s.mode) (hout : t.out = s.out) :
    t.countdownTick = { t with cd := s.countdownTick.cd, out := s.countdownTick.out } := by
  obtain h | ⟨ha, h1⟩ | ⟨ha, h2⟩ := countdown_situations s
  · rw [countdownTick_of_holding h, countdownTick_of_holding (by rwa [hcd]), ← hcd, ← hout]
  · rw [countdownTick_of_expiring ha h1, countdownTick_of_expiring (by rwa [hcd]) (by rwa [hcd])]
  · rw [countdownTick_of_counting ha h2, countdownTick_of_counting (by rwa [hcd]) (by rwa [hcd]), hcd, hmode, hout]

theorem ticked_congr (hcd : t.cd = s.cd) (hmode : t.mode = s.mode) (hout : t.out = s.out) :
    t.ticked = { t with clk := t.clk.advance, cd := s.ticked.cd, out := s.ticked.out, rsp := none } := by
  rw [State.ticked, countdownTick_congr (s := s.clockAdvance) (t := t.clockAdvance) hcd hmode hout]
  rfl

end

/-- Settles O28: in either order the clock is advanced once and the countdown's registers are those of
`s.countdownTick`. -/
theorem tickPartsCommute : Obligations.TickPartsCommute := by
  intro s
  have clock_first : s.clockAdvance.countdownTick =
      { s.clockAdvance with cd := s.countdownTick.cd, out := s.countdownTick.out } :=
    countdownTick_congr rfl rfl rfl
  have countdown_alone : s.countdownTick = { s with cd := s.countdownTick.cd, out := s.countdownTick.out } :=
    countdownTick_congr rfl rfl rfl
  calc s.clockAdvance.countdownTick
    _ = { s with cd := s.countdownTick.cd, out := s.countdownTick.out }.clockAdvance := clock_first
    _ = s.countdownTick.clockAdvance := congrArg State.clockAdvance countdown_alone.symm

theorem Clock.legal_iff (c : Clock) : c.Legal ↔ c.h.toNat ≤ 23 ∧ c.m.toNat ≤ 59 ∧ c.s.toNat ≤ 59 :=
  ⟨fun h => ⟨h.h, h.m, h.s⟩, fun ⟨hh, hm, hs⟩ => ⟨hh, hm, hs⟩⟩

/-- Settles O26, branch by branch of the cascade: the field that moves goes up by one and the fields below it wrap. -/
theorem clockAdvancesOneSecond : Obligations.ClockAdvancesOneSecond := by
  intro c hlegal
  obtain ⟨hh, hm, hs⟩ := c.legal_iff.mp hlegal
  obtain ⟨count_second, wrap_second⟩ := clockAdvanceCascades c
  rw [Clock.legal_iff, Clock.secondOfDay, Clock.secondOfDay]
  by_cases below_s : c.s.toNat < 59
  · obtain ⟨es, em, eh⟩ := count_second below_s
    bv_omega
  · obtain ⟨es, count_minute, wrap_minute⟩ := wrap_second (by omega)
    by_cases below_m : c.m.toNat < 59
    · obtain ⟨em, eh⟩ := count_minute below_m
      bv_omega
    · obtain ⟨em, count_hour, wrap_hour⟩ := wrap_minute (by omega)
      by_cases below_h : c.h.toNat < 23
      · have eh := count_hour below_h
        bv_omega
      · have eh := wrap_hour (by omega)
        bv_omega

end Sys2Proof.Machine
end

section
/-! The step: which word it takes and runs (R45, R70, R120, R121), when it completes (R48), and what a stopped block
drops (R117). -/

namespace Sys2Proof.Machine

section
variable {s t u : State} {i : Instr} {ch : Channel} {w : Word} {rest : List Arrival}

/-! A step, by what `fetch` gives. -/

theorem step_of_fetch_nothing (h : s.fetch = (.nothing, t)) : step s = .next t := by
  simp only [step, h]

theorem step_congr (h : s.fetch = t.fetch) : step s = step t := by
  simp only [step, h]

theorem step_of_fetch_command (hwf : i.wellFormed = true) (h : s.fetch = (.word i.channel (encode i), u)) :
    step s = exec i u := by
  rw [step_of_fetch_word h, runWord_ok (decode_encode hwf)]

theorem step_of_narrowWrite (h : s.arrivals = .narrowWrite :: rest) :
    step s = .refused .narrowWriteOutsideSpec := by
  simp [step, State.fetch, h]

/-- The delivery of a command is taken as the command's word on its own channel. -/
theorem fetch_arrivalOf (hs : s.NoFault) (hp : s.pendingTick = none) (ha : s.arrivals = arrivalOf i :: rest) :
    s.fetch = (.word i.channel (encode i), { s with arrivals := rest }) := by
  unfold arrivalOf at ha
  cases hi : i.channel with
  | cmd => rw [hi] at ha; exact fetch_cmd hs hp ha
  | tick => rw [hi] at ha; exact fetch_tick hs hp ha

theorem step_arrivalOf (hwf : i.wellFormed = true) (hs : s.NoFault) (hp : s.pendingTick = none)
    (ha : s.arrivals = arrivalOf i :: rest) : step s = exec i { s with arrivals := rest } :=
  step_of_fetch_command hwf (fetch_arrivalOf hs hp ha)

/-- The command that arrives next after a tick runs in the state the tick leaves. -/
theorem step_ticked_arrivalOf (hwf : i.wellFormed = true) (hs : s.NoFault) (hp : s.pendingTick = none)
    (ha : s.arrivals = arrivalOf i :: rest) : step s.ticked = exec i { s.ticked with arrivals := rest } :=
  step_arrivalOf hwf (ticked_noFault hs) ((ticked_pendingTick s).trans hp) ((ticked_arrivals s).trans ha)

/-- Placing a command's word is delivering the command (log 2, log 16). -/
theorem withFetchWord_encode (s : State) (i : Instr) :
    s.withFetchWord 32 (encode i).toNat =
      { s with arrivals := arrivalOf i :: s.arrivals, pendingTick := none } := by
  simp only [State.withFetchWord, Laws.tableWord_toNat, Laws.deliveryChannel_encode]
  rfl

theorem decodeTableWord_encode (hwf : i.wellFormed = true) : decodeTableWord 32 (encode i).toNat = some i := by
  simp only [decodeTableWord, Laws.tableWord_toNat, Laws.deliveryChannel_encode, decode_encode hwf]

/-- No word touches what is still to arrive. -/
theorem runWord_sameInputs (h : s.runWord ch w = .next t) : s.SameInputs t := by
  cases hd : decode ch w with
  | ok i =>
    rw [runWord_ok hd] at h
    obtain ⟨harrivals, hpending, hcount⟩ := exec_inputs h
    exact ⟨harrivals, hpending, hcount⟩
  | error e =>
    rw [runWord_error hd] at h
    cases h
    exact ⟨rfl, rfl, rfl⟩

/-! When a step completes, and what it does with nothing to perform. -/

theorem step_of_idle (hp : s.pendingTick = none) (ha : s.arrivals = []) : step s = .next s := by
  cases hs : s.stopped with
  | false => exact step_of_fetch_nothing (by simp [State.fetch, State.takeArrival, ha, hs, hp])
  | true => exact step_of_fetch_nothing (by simp [State.fetch, State.discardArrival, ha, hs, hp])

/-- A narrow write apart, each thing `fetch` can give completes. -/
theorem step_completes (hnarrow : ∀ rest, s.arrivals ≠ .narrowWrite :: rest) : ∃ t, step s = .next t := by
  have word_completes {ch w u} (hf : s.fetch = (.word ch w, u)) : ∃ t, step s = .next t := by
    rw [step_of_fetch_word hf]
    exact runWord_next u ch w
  obtain ⟨ok, rest, ha, -⟩ | ⟨rest, ha, -⟩ | ⟨hreset, -, ⟨-, hf⟩ | ⟨w, -, -, hf⟩ | ⟨-, -, hf⟩⟩ := fetch_cases s
  · exact ⟨_, step_of_reset ha⟩
  · exact absurd ha (hnarrow rest)
  · exact ⟨_, step_of_fetch_nothing hf⟩
  · exact word_completes hf
  · obtain ⟨-, e⟩ | ⟨ch, w, u, e⟩ | ⟨ok, rest, ha, -⟩ | ⟨rest, ha, -⟩ := takeArrival_cases s
    · exact ⟨_, step_of_fetch_nothing (hf.trans e)⟩
    · exact word_completes (hf.trans e)
    · exact absurd ha (hreset ok rest)
    · exact absurd ha (hnarrow rest)

theorem step_of_stopped (hs : s.stopped = true) (hreset : ∀ ok rest, s.arrivals ≠ .reset ok :: rest)
    (hnarrow : ∀ rest, s.arrivals ≠ .narrowWrite :: rest) : step s = .next s.discardArrival := by
  obtain ⟨t, h⟩ := step_completes hnarrow
  rw [h, eq_discardArrival_of_stopped hs hreset h]

/-- The runs that two steps in a row make up. -/
theorem run_of_two_steps (h : step s = .next t) (h' : step t = .next u) :
    Sys2Proof.core.run 1 s = .next t ∧ Sys2Proof.core.run 2 s = .next u :=
  ⟨run_succ 0 h, (run_succ 1 h).trans (run_succ 0 h')⟩

end

/-! The obligations. -/

/-- Settles O35: a narrow write is the one thing `fetch` gives that a step refuses. -/
theorem stepCompletes : Obligations.StepCompletes :=
  fun _ => ⟨step_completes, fun _ => step_of_narrowWrite⟩

/-- Settles O36: the next word is what `fetch` gives, and decoding it decides what runs. -/
theorem stepRunsDecodedCommand : Obligations.StepRunsDecodedCommand := by
  intro s u ch w hs hnext
  have runs : step s = u.runWord ch w := step_of_fetch_word (fetch_of_nextWord hs hnext)
  exact ⟨runs, fun i hd => runs.trans (runWord_ok hd), fun e hd => runs.trans (runWord_error hd)⟩

/-- Settles O37: the placed word is the delivery of its command. -/
theorem placedWordRunsNext : Obligations.PlacedWordRunsNext := by
  intro s i hs hwf
  refine ⟨decodeTableWord_encode hwf, ?_⟩
  rw [withFetchWord_encode]
  exact step_arrivalOf hwf hs rfl rfl

/-- Settles O11: a stopped block's step is `discardArrival`, which drops a pending tick before an arrival. -/
theorem stoppedBlockDropsArrivals : Obligations.StoppedBlockDropsArrivals := by
  refine ⟨fun s a rest hs hp ha hreset hnarrow => ?arrival, fun s w hs hp hreset hnarrow => ?pending,
    fun s => step_of_idle⟩
  case arrival =>
    rw [step_of_stopped ((stopped_iff s).mpr hs) (by simp [ha, hreset]) (by simp [ha, hnarrow])]
    simp [State.discardArrival, hp, ha]
  case pending =>
    rw [step_of_stopped ((stopped_iff s).mpr hs) hreset hnarrow]
    simp [State.discardArrival, hp]

/-- Settles O39: whichever the order, the pair's step takes what the serialised arrivals' step takes. -/
theorem simultaneousEitherOrder : Obligations.SimultaneousEitherOrder := by
  intro s c t rest hs hp ha
  obtain tick_first | cmd_first := fetch_simultaneous hs hp ha
  · refine .inl (step_congr (tick_first.trans (Eq.symm ?_)))
    exact fetch_tick hs hp rfl
  · refine .inr (step_congr (cmd_first.trans (Eq.symm ?_)))
    exact fetch_cmd hs hp rfl

/-- Settles O38: the tick is made pending by `fetch` and the command leaves it so; a pending tick is fetched with the
arrivals untouched; a reset clears it. -/
theorem pendingTickTakenNext : Obligations.PendingTickTakenNext := by
  refine ⟨fun s t c rest hs hp ha hstep => ?becomes, fun s hs hp hreset hnarrow => ?taken,
    fun s t ok rest ha hstep => ?abandoned⟩
  case becomes =>
    rw [step_of_fetch_word (fetch_tickDuringCmd hs hp ha)] at hstep
    obtain ⟨harrivals, hpending, -⟩ := runWord_sameInputs hstep
    exact ⟨hpending, harrivals⟩
  case taken =>
    have ticks := step_of_fetch_command (i := .tick) rfl (fetch_pending hs hp hreset hnarrow)
    rw [exec_tick_eq_ticked] at ticks
    exact ⟨_, ticks, ticked_clk _, ticked_pendingTick _, ticked_arrivals _⟩
  case abandoned =>
    rw [step_of_reset ha] at hstep
    cases hstep
    rfl

/-- Settles O40: the two steps are the tick and GETTIME, one after the other in one of the two orders, and GETTIME reads
the clock of the one state it runs in. -/
theorem noTornRead : Obligations.NoTornRead := by
  intro s rest hs hp ha
  obtain tick_first | cmd_first := fetch_simultaneous hs hp ha
  case inl =>
    have first := step_of_fetch_command (i := .tick) rfl tick_first
    rw [exec_tick_eq_ticked] at first
    have second := step_ticked_arrivalOf (i := .gettime)
      (s := { s with arrivals := arrivalOf .gettime :: rest, simulCount := s.simulCount + 1 }) rfl hs hp rfl
    rw [exec_gettime, ticked_clk] at second
    obtain ⟨run_one, run_two⟩ := run_of_two_steps first second
    exact ⟨_, _, run_one, run_two, rfl, rfl,
      .inr ⟨_, rfl, rfl, timeWord_hours _, timeWord_minutes _, timeWord_seconds _⟩⟩
  case inr =>
    have first := step_of_fetch_command (i := .gettime) rfl cmd_first
    rw [exec_gettime] at first
    have second := step_arrivalOf (i := .tick)
      (s := { s with
        arrivals := arrivalOf .tick :: rest, simulCount := s.simulCount + 1, rsp := some (timeWord s.clk) })
      rfl hs hp rfl
    rw [exec_tick_eq_ticked] at second
    obtain ⟨run_one, run_two⟩ := run_of_two_steps first second
    exact ⟨_, _, run_one, run_two, ticked_clk _, ticked_arrivals _,
      .inl ⟨_, rfl, rfl, timeWord_hours s.clk, timeWord_minutes s.clk, timeWord_seconds s.clk⟩⟩

end Sys2Proof.Machine
end

section
/-! Runs of consecutive ticks (R114): `n` ticks are `State.ticked`, iterated. -/

namespace Sys2Proof.Machine

/-! The run. -/

section
variable {s : State}

/-- A tick takes no notice of the ticks to come. -/
theorem ticked_withTicks (s : State) (n : Nat) : (s.withTicks n).ticked = s.ticked.withTicks n := by
  have registers : s.ticked = { s with clk := s.clk.advance, cd := s.ticked.cd, out := s.ticked.out, rsp := none } :=
    ticked_congr rfl rfl rfl
  have with_ticks : (s.withTicks n).ticked =
      { s with clk := s.clk.advance, cd := s.ticked.cd, out := s.ticked.out, rsp := none }.withTicks n :=
    ticked_congr rfl rfl rfl
  exact with_ticks.trans (congrArg (State.withTicks · n) registers.symm)

theorem step_withTicks_succ (n : Nat) (hs : s.NoFault) :
    step (s.withTicks (n + 1)) = .next (s.ticked.withTicks n) := by
  rw [← ticked_withTicks]
  exact step_arrivalOf (i := .tick) (s := s.withTicks (n + 1)) rfl hs rfl rfl

theorem run_withTicks (k m : Nat) (hs : s.NoFault) :
    Sys2Proof.core.run k (s.withTicks (k + m)) = .next ((State.ticked^[k] s).withTicks m) := by
  induction k generalizing s with
  | zero => rw [Nat.zero_add]; rfl
  | succ k ih =>
    rw [Nat.succ_add, run_succ k (step_withTicks_succ (k + m) hs), ih (ticked_noFault hs)]
    rfl

theorem run_all_ticks (n : Nat) (hs : s.NoFault) :
    Sys2Proof.core.run n (s.withTicks n) = .next ((State.ticked^[n] s).withTicks 0) :=
  run_withTicks n 0 hs

end

/-! What the ticks leave alone, and the clock. -/

section
variable (s : State) (n : Nat)

theorem ticks_noFault (hs : s.NoFault) : (State.ticked^[n] s).NoFault :=
  Function.Iterate.rec State.NoFault hs (fun _ => ticked_noFault) n

theorem ticks_mode : (State.ticked^[n] s).mode = s.mode :=
  Function.Iterate.rec (fun t => t.mode = s.mode) rfl (fun t h => (ticked_mode t).trans h) n

theorem ticks_arrivals : (State.ticked^[n] s).arrivals = s.arrivals :=
  Function.Iterate.rec (fun t => t.arrivals = s.arrivals) rfl (fun t h => (ticked_arrivals t).trans h) n

theorem ticks_clk : (State.ticked^[n] s).clk = Clock.advance^[n] s.clk := by
  have moves : Function.Semiconj State.clk State.ticked Clock.advance := ticked_clk
  exact moves.iterate_right n s

end

section
variable {c d : Clock}

theorem secondOfDay_lt (hc : c.Legal) : c.secondOfDay < 86400 := by
  obtain ⟨hh, hm, hs⟩ := hc
  rw [Clock.secondOfDay]
  omega

/-- A legal clock is determined by its second of the day. -/
theorem eq_of_secondOfDay_eq (hc : c.Legal) (hd : d.Legal) (h : c.secondOfDay = d.secondOfDay) : c = d := by
  obtain ⟨-, hcm, hcs⟩ := hc
  obtain ⟨-, hdm, hds⟩ := hd
  obtain ⟨ch, cm, cs⟩ := c
  obtain ⟨dh, dm, ds⟩ := d
  simp only [Clock.secondOfDay] at *
  rw [Clock.mk.injEq]
  refine ⟨?_, ?_, ?_⟩ <;> exact BitVec.eq_of_toNat_eq (by omega)

theorem advances_legal_and_secondOfDay (hc : c.Legal) (n : Nat) :
    (Clock.advance^[n] c).Legal ∧ (Clock.advance^[n] c).secondOfDay = (c.secondOfDay + n) % 86400 := by
  induction n with
  | zero => exact ⟨hc, (Nat.mod_eq_of_lt (secondOfDay_lt hc)).symm⟩
  | succ n ih =>
    obtain ⟨legal, second⟩ := ih
    obtain ⟨legal_next, second_next⟩ := clockAdvancesOneSecond _ legal
    rw [Function.iterate_succ_apply']
    exact ⟨legal_next, by omega⟩

end

/-! The countdown. -/

section
variable {s : State}

/-- Idle, Expired and zero-length countdowns stay in that situation (R96, R97, R99). -/
theorem ticks_of_holding (h : s.cd.active = false ∨ s.cd.rem = 0) (n : Nat) :
    (State.ticked^[n] s).cd = s.cd ∧ (State.ticked^[n] s).out = s.out := by
  refine Function.Iterate.rec (fun t : State => t.cd = s.cd ∧ t.out = s.out) ⟨rfl, rfl⟩ ?_ n
  rintro t ⟨hcd, hout⟩
  obtain ⟨cd_kept, out_kept⟩ := ticked_of_holding (s := t) (by rwa [hcd])
  exact ⟨cd_kept.trans hcd, out_kept.trans hout⟩

/-- `t` is where an active countdown of `s` stands after `n` ticks, before it expires. -/
structure State.CountedDown (s : State) (n : Nat) (t : State) : Prop where
  rem : t.cd.rem.toNat = s.cd.rem.toNat - n
  active : t.cd.active = true
  complete : t.cd.complete = s.cd.complete
  plate : t.out.plate = s.out.plate
  heat : 1 ≤ n → t.out.heat = decideHeating s.mode (s.cd.rem.toNat - n)

theorem ticks_countedDown (ha : s.cd.active = true) (n : Nat) (hn : n < s.cd.rem.toNat) :
    s.CountedDown n (State.ticked^[n] s) := by
  induction n with
  | zero => exact ⟨rfl, ha, rfl, rfl, fun h => absurd h (by decide)⟩
  | succ n ih =>
    obtain ⟨hrem, hactive, hcomplete, hplate, -⟩ := ih (by omega)
    have left : (State.ticked^[n] s).cd.rem.toNat - 1 = s.cd.rem.toNat - (n + 1) := by omega
    obtain ⟨hcd, hout⟩ := ticked_of_counting hactive (by omega)
    rw [left, ticks_mode] at hout
    rw [Function.iterate_succ_apply']
    refine ⟨?_, ?_, ?_, ?_, fun _ => ?_⟩
    · rw [hcd, ← left]
      exact rem_sub_one_toNat (by omega)
    · rw [hcd]; exact hactive
    · rw [hcd]; exact hcomplete
    · rw [hout]; exact hplate
    · rw [hout]

/-- The tick after `N - 1` counted ones expires, and the Expired countdown stays so. -/
theorem ticks_expired (ha : s.cd.active = true) (h1 : 1 ≤ s.cd.rem.toNat) {n : Nat} (hn : s.cd.rem.toNat ≤ n) :
    (State.ticked^[n] s).cd = { rem := 0, active := false, complete := true } ∧
      (State.ticked^[n] s).out = { heat := false, plate := false } := by
  obtain ⟨m, hm⟩ : ∃ m, s.cd.rem.toNat = m + 1 := ⟨s.cd.rem.toNat - 1, by omega⟩
  obtain ⟨j, rfl⟩ : ∃ j, n = j + (m + 1) := ⟨n - (m + 1), by omega⟩
  have last := ticks_countedDown ha m (by omega)
  have one_left : (State.ticked^[m] s).cd.rem = 1 := by
    refine BitVec.eq_of_toNat_eq (last.rem.trans ?_)
    rw [hm, Nat.add_sub_cancel_left]
    rfl
  obtain ⟨cd_expired, out_off⟩ := ticked_of_expiring last.active one_left
  rw [Function.iterate_add_apply, Function.iterate_succ_apply', ← cd_expired, ← out_off]
  exact ticks_of_holding (.inl (by rw [cd_expired])) j

end

/-! The obligations. -/

/-- Settles O29: the ticks advance the clock by themselves, and a whole day brings back the second of the day. -/
theorem ticksAdvanceClock : Obligations.TicksAdvanceClock := by
  intro n s hs hc
  obtain ⟨legal, second⟩ := advances_legal_and_secondOfDay hc n
  rw [← ticks_clk] at legal second
  refine ⟨_, run_all_ticks n hs, legal, second, fun hdays => ?wholeDays, ticks_arrivals s n⟩
  case wholeDays =>
    have := secondOfDay_lt hc
    exact eq_of_secondOfDay_eq legal hc (second.trans (by omega))

/-- Settles O30: `n` below the countdown's length is counted down, and from there on it is expired. -/
theorem ticksCountDown : Obligations.TicksCountDown := by
  intro n s hs ha h1
  refine ⟨_, run_all_ticks n hs, ticks_mode s n, fun hn => ?counting, ticks_expired ha h1⟩
  case counting =>
    obtain ⟨hrem, hactive, hcomplete, hplate, hheat⟩ := ticks_countedDown ha n hn
    exact ⟨hrem, hactive, hcomplete, hplate, hheat⟩

/-- Settles O31: a tick that counts nothing leaves the next one nothing to count. -/
theorem ticksLeaveOtherStates : Obligations.TicksLeaveOtherStates := by
  intro n s hs h
  obtain ⟨hcd, hout⟩ := ticks_of_holding h n
  exact ⟨_, run_all_ticks n hs, hcd, hout, ticks_mode s n⟩

/-- Settles O32: after the first `k` of the ticks the rest are still to come and no fault is recorded. -/
theorem ticksRunSafely : Obligations.TicksRunSafely := by
  intro n s hs k hk
  obtain ⟨m, rfl⟩ := Nat.exists_eq_add_of_le hk
  exact ⟨_, run_withTicks k m hs, ticks_noFault s k hs⟩

end Sys2Proof.Machine
end

section
/-! Properties of every command: twice is once (R52), which registers it writes (R32, R85, R115), that clock and
countdown do not meet (R84, R112), and the transition table (R95). -/

namespace Sys2Proof.Machine

/-! START and DUTY, whose operand may name no mode (R73). -/

theorem modeCode_cases (md : BitVec 2) : (∃ m : PowerMode, md = m.code) ∨ md = 3 := by
  cases h : modeOf md with
  | some m => exact .inl ⟨m, code_of_modeOf h⟩
  | none => exact .inr ((modeOf_eq_none_iff md).mp h)

/-- Settles O12: code 3 takes the last branch of either meaning. -/
theorem modeCodeThreeRaises : Obligations.ModeCodeThreeRaises := fun _ _ => ⟨rfl, rfl⟩

section
variable (s : State)

theorem exec_start_three :
    exec (.start 3) s = .next { s with fault := { kind := .illegalCommand, info := encode (.start 3) }, rsp := none } :=
  (modeCodeThreeRaises s 0).1

theorem exec_duty_three (rrr : BitVec 24) :
    exec (.duty 3 rrr) s =
      .next { s with fault := { kind := .illegalCommand, info := encode (.duty 3 rrr) }, rsp := none } :=
  (modeCodeThreeRaises s rrr).2

theorem exec_setrem_of_fits {sss : BitVec 24} (h : sss.toNat < 2 ^ Config.wRem) :
    exec (.setrem sss) s = .next { s with cd := { s.cd with rem := sss }, rsp := none } := by
  rw [exec_setrem, setRemaining_of_fits s h]

end

/-! A command other than TICK, its operands given, does the same to every state. -/

/-- `f` is what `i` does to a state: doing it twice is doing it once, and it carries nothing from the clock to the
countdown, the mode, the outputs and the fault register, nor back. -/
structure Effect (i : Instr) (f : State → State) : Prop where
  exec_eq : ∀ s, exec i s = .next (f s)
  idempotent : ∀ s, f (f s) = f s := by intro s; rfl
  clock_free : ∀ s c, (f { s with clk := c }).cd = (f s).cd ∧ (f { s with clk := c }).mode = (f s).mode ∧
    (f { s with clk := c }).out = (f s).out ∧ (f { s with clk := c }).fault = (f s).fault := by
    intro s c; exact ⟨rfl, rfl, rfl, rfl⟩
  countdown_free : ∀ s d m o, (f { s with cd := d, mode := m, out := o }).clk = (f s).clk ∧
    (f { s with cd := d, mode := m, out := o }).fault = (f s).fault := by
    intro s d m o; exact ⟨rfl, rfl⟩

theorem exists_effect {i : Instr} (hne : i ≠ .tick) : ∃ f, Effect i f := by
  cases i with
  | gettime => exact ⟨_, { exec_eq := exec_gettime }⟩
  | settime hh mm =>
    by_cases hr : hh.toNat ≤ 23 ∧ mm.toNat ≤ 59
    · exact ⟨_, { exec_eq := (exec_settime_of_inRange · hr) }⟩
    · exact ⟨_, { exec_eq := (exec_settime_of_outOfRange · hr) }⟩
  | getrem => exact ⟨_, { exec_eq := exec_getrem }⟩
  | setrem sss =>
    by_cases hr : sss.toNat < 2 ^ Config.wRem
    · exact ⟨_, { exec_eq := (exec_setrem_of_fits · hr) }⟩
    · exact ⟨_, { exec_eq := (exec_of_outOfRange · (not_lt.mp hr)) }⟩
  | start md =>
    obtain ⟨m, rfl⟩ | rfl := modeCode_cases md
    · exact ⟨_, { exec_eq := (exec_start_code · m) }⟩
    · exact ⟨_, { exec_eq := exec_start_three }⟩
  | stop => exact ⟨_, { exec_eq := exec_stop }⟩
  | ack => exact ⟨_, { exec_eq := exec_ack }⟩
  | peek => exact ⟨_, { exec_eq := exec_peek }⟩
  | duty md rrr =>
    obtain ⟨m, rfl⟩ | rfl := modeCode_cases md
    · exact ⟨_, { exec_eq := exec_duty_code m rrr }⟩
    · exact ⟨_, { exec_eq := (exec_duty_three · rrr) }⟩
  | status => exact ⟨_, { exec_eq := exec_status }⟩
  | tick => exact absurd rfl hne

/-- Settles O41: the effect of a command, done twice, is done once. -/
theorem commandsIdempotent : Obligations.CommandsIdempotent := by
  intro i s t hne h
  obtain ⟨f, hf⟩ := exists_effect hne
  rw [hf.exec_eq] at h ⊢
  cases h
  rw [hf.idempotent]

/-- Settles O45: an effect carries nothing across, and of a TICK each part works on its own registers. -/
theorem clockAndCountdownIndependent : Obligations.ClockAndCountdownIndependent := by
  intro i s t h
  by_cases hi : i = .tick
  · subst hi
    cases h
    refine ⟨fun c => ⟨_, exec_tick_eq_ticked _, ?_⟩, fun d m o => ⟨_, exec_tick_eq_ticked _, ?_⟩⟩
    · rw [ticked_congr (s := s) (t := { s with clk := c }) rfl rfl rfl]
      exact ⟨rfl, (ticked_mode s).symm, rfl, (ticked_fault s).symm⟩
    · rw [ticked_clk, ticked_fault]
      exact ⟨(ticked_clk s).symm, (ticked_fault s).symm⟩
  · obtain ⟨f, hf⟩ := exists_effect hi
    rw [hf.exec_eq] at h
    cases h
    exact ⟨fun c => ⟨_, hf.exec_eq _, hf.clock_free s c⟩, fun d m o => ⟨_, hf.exec_eq _, hf.countdown_free s d m o⟩⟩

/-! The registers a command writes. -/

/-- Settles O42, outcome by outcome of `exec_cases`: the registers an outcome does not name are those of `s`. -/
theorem onlyWritersChangeRegisters : Obligations.OnlyWritersChangeRegisters := by
  intro i s t h
  obtain ⟨harrivals, hpending, hcount⟩ := exec_inputs h
  refine ⟨⟨harrivals, hpending, hcount⟩, ?_⟩
  obtain ⟨v, rfl, hread⟩ | ⟨hh, mm, rfl, -, -, rfl⟩ | ⟨hh, mm, rfl, hout, rfl⟩ | ⟨sss, rfl, -, rfl⟩ |
    ⟨sss, rfl, hout, rfl⟩ | ⟨m, rfl, rfl⟩ | ⟨-, hthree, rfl⟩ | ⟨rfl, rfl⟩ | ⟨rfl, rfl⟩ | ⟨rfl, e⟩ := exec_cases h
  · simpa using hread
  · simp
  · simpa using fun _ => hout
  · simp
  · simpa using fun _ => hout
  · simp
  · simpa using fun _ => .inr (.inr hthree)
  · simp
  · simp
  · have ticks : t = s.ticked := e
    simp [ticks]

end Sys2Proof.Machine
end

section
/-! The transition table of the countdown (R95), in the states of R27. -/

namespace Sys2Proof.Machine

section
variable {c : Countdown} {s : State}

theorem fsmState_eq_running_iff : fsmState c = .running ↔ c.active = true := by
  unfold fsmState
  cases c.active <;> cases c.complete <;> decide

/-- Where the flags exclude each other, the completion flag alone says Expired. -/
theorem fsmState_eq_expired_iff (hflags : ¬(c.active = true ∧ c.complete = true)) :
    fsmState c = .expired ↔ c.complete = true := by
  by_cases ha : c.active = true
  · have not_complete : ¬c.complete = true := fun hc => hflags ⟨ha, hc⟩
    simp [fsmState, ha, not_complete]
  · simp [fsmState, ha]

theorem active_eq_false_iff : c.active = false ↔ fsmState c ≠ .running := by
  rw [ne_eq, fsmState_eq_running_iff, Bool.not_eq_true]

/-- Outside Running both outputs are off (R35.2, R35.3). -/
theorem outputs_off_of_inactive (hinv : s.Inv) (h : s.cd.active = false) :
    s.out = { heat := false, plate := false } := by
  have plate_off : s.out.plate = false := hinv.plate.trans h
  have heat_off : s.out.heat = false := by
    rw [← Bool.not_eq_true]
    exact fun hon => absurd (hinv.heat hon) (by simp [h])
  exact congrArg₂ Outputs.mk heat_off plate_off

/-- The TICK rows of the table: only the expiring tick leaves the state it finds. -/
theorem fsmState_ticked (s : State) :
    fsmState s.ticked.cd = if fsmState s.cd = .running ∧ s.cd.rem = 1 then .expired else fsmState s.cd := by
  simp only [fsmState_eq_running_iff]
  obtain hold | ⟨ha, h1⟩ | ⟨ha, h2⟩ := countdown_situations s
  · have not_expiring : ¬(s.cd.active = true ∧ s.cd.rem = 1) := by
      rintro ⟨ha, h1⟩
      simp [ha, h1] at hold
    rw [if_neg not_expiring, (ticked_of_holding hold).1]
  · rw [if_pos ⟨ha, h1⟩, (ticked_of_expiring ha h1).1]
    rfl
  · have not_expiring : ¬(s.cd.active = true ∧ s.cd.rem = 1) := by
      rintro ⟨-, h1⟩
      simp [h1] at h2
    rw [if_neg not_expiring, (ticked_of_counting ha h2).1]
    rfl

end

/-- Settles O46, row by row; the invariant is what the rows of STOP and ACK rest on. -/
theorem transitionTable : Obligations.TransitionTable := by
  intro s hinv
  refine ⟨fun m => ⟨_, exec_start_code s m, rfl, rfl, rfl⟩,
    ⟨_, exec_stop s, rfl, rfl, fun hidle => ?stopOutputs, ?stopState⟩,
    ⟨_, exec_ack s, rfl, ?ackState, fun hrunning => ?ackKept⟩,
    fun sss hfits => ⟨_, exec_setrem_of_fits s hfits, rfl, rfl⟩,
    ⟨_, exec_tick_eq_ticked s, fsmState_ticked s, fun hhold => ?tickKept⟩,
    fun i m rrr hi => ?reads,
    fun hh mm hhh hmm => ⟨_, exec_settime_of_inRange s ⟨hhh, hmm⟩, rfl, rfl, rfl⟩⟩
  case stopOutputs => exact (outputs_off_of_inactive hinv (active_eq_false_iff.mpr hidle)).symm
  case stopState =>
    simp only [fsmState_eq_expired_iff hinv.flags]
    rfl
  case ackState =>
    simp only [fsmState_eq_running_iff]
    rfl
  case ackKept =>
    have clear : s.cd.complete = false := by
      rwa [ne_eq, fsmState_eq_expired_iff hinv.flags, Bool.not_eq_true] at hrunning
    rw [← clear]
  case tickKept => exact ticked_of_holding (hhold.imp_left active_eq_false_iff.mpr)
  case reads =>
    simp only [List.mem_cons, List.not_mem_nil, or_false] at hi
    obtain rfl | rfl | rfl | rfl | rfl := hi
    · exact ⟨_, exec_gettime s, rfl, rfl, rfl, rfl⟩
    · exact ⟨_, exec_getrem s, rfl, rfl, rfl, rfl⟩
    · exact ⟨_, exec_peek s, rfl, rfl, rfl, rfl⟩
    · exact ⟨_, exec_status s, rfl, rfl, rfl, rfl⟩
    · exact ⟨_, exec_duty_code m rrr s, rfl, rfl, rfl, rfl⟩

end Sys2Proof.Machine
end

section
/-! What every step keeps: the invariant (R24, R25, R35, R115), and that the completion flag and the heating element are
switched on by a tick only (R26, R98, R106, R144). -/

namespace Sys2Proof.Machine

section
variable {s t : State} {i : Instr}

/-! What a step can do to the registers. -/

theorem sameRegisters_fetch {taken : Taken} (h : s.fetch = (taken, t)) : s.SameRegisters t ∧ t.fault = s.fault := by
  obtain ⟨hclk, hcd, hmode, hout, hfault⟩ := fetch_frame s
  rw [h] at hclk hcd hmode hout hfault
  exact ⟨⟨hclk, hcd, hmode, hout⟩, hfault⟩

/-- The registers after a step: as before it, with at most a word recorded that is no command; or reset; or what a
command, fetched by a block that is not stopped, made of them. -/
theorem step_registers_cases (h : step s = .next t) :
    (s.SameRegisters t ∧
        (t.fault = s.fault ∨ ∃ ch w e, decode ch w = .error e ∧ t.fault = { kind := .illegalCommand, info := w })) ∨
      (∃ ok u, t = State.resetBlock u ok) ∨
      ∃ i u, s.NoFault ∧ s.fetch = (.word i.channel (encode i), u) ∧ i.wellFormed = true ∧
        s.SameRegisters u ∧ u.fault = s.fault ∧ exec i u = .next t := by
  obtain hf | ⟨ok, u, -, rfl⟩ | ⟨ch, w, i, u, hf, hd, hexec⟩ | ⟨ch, w, e, u, hf, hd, rfl⟩ := step_cases h
  · obtain ⟨hregs, hfault⟩ := sameRegisters_fetch hf
    exact .inl ⟨hregs, .inl hfault⟩
  · exact .inr (.inl ⟨ok, u, rfl⟩)
  · have running : s.NoFault := (not_stopped_iff s).mp (not_stopped_of_fetch_word hf)
    obtain ⟨hregs, hfault⟩ := sameRegisters_fetch hf
    rw [← channel_of_decode hd, ← encode_of_decode hd] at hf
    exact .inr (.inr ⟨i, u, running, hf, wellFormed_of_decode hd, hregs, hfault, hexec⟩)
  · obtain ⟨⟨hclk, hcd, hmode, hout⟩, -⟩ := sameRegisters_fetch hf
    exact .inl ⟨⟨hclk, hcd, hmode, hout⟩, .inr ⟨ch, w, e, hd, rfl⟩⟩

/-! The invariant. -/

theorem inv_of_sameRegisters (hinv : s.Inv) (hregs : s.SameRegisters t) (hfault : t.fault.Explained) : t.Inv where
  clock := by rw [hregs.clk]; exact hinv.clock
  rem := by rw [hregs.cd]; exact hinv.rem
  flags := by rw [hregs.cd]; exact hinv.flags
  plate := by rw [hregs.cd, hregs.out]; exact hinv.plate
  heat := by rw [hregs.cd, hregs.out]; exact hinv.heat
  fault := hfault

theorem resetBlock_inv (s : State) (ok : Bool) : (s.resetBlock ok).Inv where
  clock := by rw [resetBlock_clk]; exact ⟨by decide, by decide, by decide⟩
  rem := Nat.two_pow_pos _
  flags := by simp
  plate := rfl
  heat := by simp
  fault := by cases ok <;> rfl

/-- A tick advances a legal clock, and turns the outputs off with the flag `cd.active`. -/
theorem ticked_inv (hinv : s.Inv) : s.ticked.Inv := by
  have clock : s.ticked.clk.Legal := by
    rw [ticked_clk]
    exact (clockAdvancesOneSecond s.clk hinv.clock).1
  have fault : s.ticked.fault.Explained := by rw [ticked_fault]; exact hinv.fault
  obtain hold | ⟨ha, h1⟩ | ⟨ha, h2⟩ := countdown_situations s
  · obtain ⟨hcd, hout⟩ := ticked_of_holding hold
    exact
      { clock, fault
        rem := by rw [hcd]; exact hinv.rem
        flags := by rw [hcd]; exact hinv.flags
        plate := by rw [hcd, hout]; exact hinv.plate
        heat := by rw [hcd, hout]; exact hinv.heat }
  · obtain ⟨hcd, hout⟩ := ticked_of_expiring ha h1
    exact
      { clock, fault
        rem := by rw [hcd]; exact Nat.two_pow_pos _
        flags := by simp [hcd]
        plate := by rw [hcd, hout]
        heat := by simp [hout] }
  · obtain ⟨hcd, hout⟩ := ticked_of_counting ha h2
    have rem_lower : (s.cd.rem - 1).toNat < 2 ^ Config.wRem := by
      rw [rem_sub_one_toNat (by omega)]
      exact (Nat.sub_le _ _).trans_lt hinv.rem
    exact
      { clock, fault
        rem := by rw [hcd]; exact rem_lower
        flags := by rw [hcd]; exact hinv.flags
        plate := by rw [hcd, hout]; exact hinv.plate
        heat := by rw [hcd]; exact fun _ => ha }

/-- A well-formed command keeps the invariant; an operand out of its range is recorded as its word, which decodes to
the command. -/
theorem exec_inv (hwf : i.wellFormed = true) (hinv : s.Inv) (h : exec i s = .next t) : t.Inv := by
  have explained := hinv.fault
  obtain ⟨v, rfl, -⟩ | ⟨hh, mm, -, hhh, hmm, rfl⟩ | ⟨hh, mm, rfl, hout, rfl⟩ | ⟨sss, -, hfits, rfl⟩ |
    ⟨sss, rfl, hout, rfl⟩ | ⟨m, -, rfl⟩ | ⟨hill, -, -⟩ | ⟨-, rfl⟩ | ⟨-, rfl⟩ | ⟨-, rfl⟩ := exec_cases h
  · exact inv_of_sameRegisters hinv ⟨rfl, rfl, rfl, rfl⟩ explained
  · exact { hinv with clock := ⟨hhh, hmm, hinv.clock.s⟩ }
  · exact inv_of_sameRegisters hinv ⟨rfl, rfl, rfl, rfl⟩ (.inl ⟨hh, mm, decode_encode hwf, hout⟩)
  · exact { hinv with rem := hfits }
  · exact inv_of_sameRegisters hinv ⟨rfl, rfl, rfl, rfl⟩ (.inr ⟨sss, decode_encode hwf, hout⟩)
  · exact { hinv with flags := by simp, plate := rfl, heat := fun _ => rfl }
  · simp [hwf] at hill
  · exact { hinv with flags := by simp, plate := rfl, heat := by simp }
  · exact { hinv with flags := by simp }
  · exact ticked_inv hinv

/-! Who sets `cd.complete`, and who switches the heating element on. -/

/-- Of the commands other than TICK only ACK and START write the flag, and they clear it. -/
theorem complete_of_exec (hne : i ≠ .tick) (h : exec i s = .next t) (hset : t.cd.complete = true) :
    s.cd.complete = true := by
  by_contra hclear
  obtain ⟨-, -, -, -, -, hwriter, -⟩ := onlyWritersChangeRegisters i s t h
  obtain rfl | rfl | ⟨md, rfl⟩ := hwriter (by simp [hset, hclear])
  · exact hne rfl
  · rw [exec_ack] at h
    cases h
    cases hset
  · obtain ⟨m, rfl⟩ | rfl := modeCode_cases md
    · rw [exec_start_code] at h
      cases h
      cases hset
    · rw [exec_start_three] at h
      cases h
      exact hclear hset

/-- Of the commands other than TICK only STOP writes the heating element, and it switches it off. -/
theorem heat_of_exec (hne : i ≠ .tick) (h : exec i s = .next t) (hon : t.out.heat = true) : s.out.heat = true := by
  by_contra hoff
  obtain ⟨-, -, -, -, -, -, -, hwriter, -⟩ := onlyWritersChangeRegisters i s t h
  obtain rfl | rfl := hwriter (by simp [hon, hoff])
  · exact hne rfl
  · rw [exec_stop] at h
    cases h
    cases hon

/-- A tick sets the flag only as it expires. -/
theorem expiring_of_ticked_complete (hclear : s.cd.complete = false) (hset : s.ticked.cd.complete = true) :
    s.cd.active = true ∧ s.cd.rem = 1 := by
  obtain hold | hexpiring | ⟨ha, h2⟩ := countdown_situations s
  · rw [(ticked_of_holding hold).1, hclear] at hset
    cases hset
  · exact hexpiring
  · rw [(ticked_of_counting ha h2).1, hclear] at hset
    cases hset

/-- A tick switches the heating element on only as it counts a second and does not expire. -/
theorem counting_of_ticked_heat (hoff : s.out.heat = false) (hon : s.ticked.out.heat = true) :
    s.cd.active = true ∧ 2 ≤ s.cd.rem.toNat := by
  obtain hold | ⟨ha, h1⟩ | hcounting := countdown_situations s
  · rw [(ticked_of_holding hold).2, hoff] at hon
    cases hon
  · rw [(ticked_of_expiring ha h1).2] at hon
    cases hon
  · exact hcounting

/-- A step that brings about `P` is a tick's, if `P` speaks of the registers only, a reset ends it, and no command but
TICK brings it about. -/
theorem tick_of_step {P : State → Prop} (hsame : ∀ {a b : State}, a.SameRegisters b → P b → P a)
    (hreset : ∀ u ok, ¬P (State.resetBlock u ok))
    (hexec : ∀ {i : Instr} {a b : State}, i ≠ .tick → exec i a = .next b → P b → P a)
    (h : step s = .next t) (hs : ¬P s) (ht : P t) :
    s.NoFault ∧ ∃ u, s.fetch = (.word .tick (encode .tick), u) ∧ s.SameRegisters u ∧ t = u.ticked := by
  obtain ⟨hregs, -⟩ | ⟨ok, u, rfl⟩ | ⟨i, u, running, hf, -, hregs, -, hrun⟩ := step_registers_cases h
  · exact absurd (hsame hregs ht) hs
  · exact absurd ht (hreset u ok)
  · by_cases htick : i = .tick
    · subst htick
      cases hrun
      exact ⟨running, u, hf, hregs, rfl⟩
    · exact absurd (hsame hregs (hexec htick hrun ht)) hs

end

/-! The obligations. -/

/-- Settles O33: the state after reset is that of a passed check. -/
theorem invariantAtReset : Obligations.InvariantAtReset := resetBlock_inv State.reset true

/-- Settles O34: a step leaves the registers, resets them, or runs a command, and each keeps the invariant. -/
theorem stepKeepsInvariant : Obligations.StepKeepsInvariant := by
  intro s t hinv h
  obtain ⟨hregs, hfault | ⟨ch, w, e, hd, hfault⟩⟩ | ⟨ok, u, rfl⟩ | ⟨i, u, -, -, hwf, hregs, hfault, hexec⟩ :=
    step_registers_cases h
  · exact inv_of_sameRegisters hinv hregs (by rw [hfault]; exact hinv.fault)
  · exact inv_of_sameRegisters hinv hregs (by rw [hfault]; exact ⟨ch, e, hd⟩)
  · exact resetBlock_inv u ok
  · have hinv_u : u.Inv := inv_of_sameRegisters hinv hregs (by rw [hfault]; exact hinv.fault)
    exact exec_inv hwf hinv_u hexec

/-- Settles O43: only a tick sets the flag, and only the expiring one. -/
theorem completeSetOnlyAtExpiry : Obligations.CompleteSetOnlyAtExpiry := by
  intro s t h hclear hset
  obtain ⟨running, u, hf, ⟨-, hcd, -, -⟩, rfl⟩ := tick_of_step (P := fun a => a.cd.complete = true)
    (fun hregs hb => by rwa [← hregs.cd]) (fun _ _ => by simp) complete_of_exec h (by simp [hclear]) hset
  obtain ⟨ha, h1⟩ := expiring_of_ticked_complete (by rwa [hcd]) hset
  obtain ⟨cd_expired, out_off⟩ := ticked_of_expiring ha h1
  rw [hcd] at ha h1
  rw [cd_expired, out_off]
  exact ⟨running, ⟨u, hf⟩, ha, h1, rfl, rfl, rfl⟩

/-- Settles O44: only a tick switches the element on, and only one that counts a second and leaves at least one; the
level it applies is the decision for what it leaves. -/
theorem heatTurnsOnOnlyInTick : Obligations.HeatTurnsOnOnlyInTick := by
  intro s t h hoff hon
  obtain ⟨running, u, hf, ⟨-, hcd, hmode, hout⟩, rfl⟩ := tick_of_step (P := fun a => a.out.heat = true)
    (fun hregs hb => by rwa [← hregs.out]) (fun _ _ => by simp) heat_of_exec h (by simp [hoff]) hon
  obtain ⟨ha, h2⟩ := counting_of_ticked_heat (by rwa [hout]) hon
  obtain ⟨cd_counted, out_decided⟩ := ticked_of_counting ha h2
  have left : u.ticked.cd.rem.toNat = u.cd.rem.toNat - 1 := by
    rw [cd_counted]
    exact rem_sub_one_toNat (by omega)
  have active_after : u.ticked.cd.active = true := by rw [cd_counted]; exact ha
  have decided : decideHeating s.mode u.ticked.cd.rem.toNat = true := by
    rw [out_decided, hmode, ← left] at hon
    exact hon
  rw [hcd] at ha h2 left
  exact ⟨running, ⟨u, hf⟩, ha, active_after, by omega, by omega, decided⟩

end Sys2Proof.Machine
end
